-- ==== Sys2Proof/Word.lean ====
section
/-! DEFINITION. The word types of WIDE128 (spec/00_scope.md R6, R8, R9, R10). -/

namespace Sys2Proof

/-- A wide value: 128 bits, unsigned (R6 VALUE_WIDTH, R9). -/
abbrev Wide := BitVec 128

/-- A limb, and also the host's access word: 64 bits (R6 LIMB_WIDTH, R7 HOST_WORD, R13). -/
abbrev Limb := BitVec 64

/-- A command word: 32 bits (R7 CMD_WIDTH, R51). -/
abbrev CmdWord := BitVec 32

/-- A byte offset into the 256-byte window (R7 WINDOW_SIZE, R34): every value of the type lies in the window. -/
abbrev Offset := BitVec 8

/-- `trunc_128` of an exact natural number (R10): the low 128 bits. -/
abbrev trunc128 (n : Nat) : Wide := BitVec.ofNat 128 n

/-- `zext_128` of a 64-bit value (R10): the same number in 128 bits. -/
abbrev zext128 (v : Limb) : Wide := v.setWidth 128

end Sys2Proof
end

