-- ==== Sys2Proof/Syntax.lean ====
section
/-! DEFINITION. The commands of WIDE128 as syntax: one constructor of `Instr` per row of spec/opcode_table.json
(spec/30_encoding.md R53, R58, R64). -/

namespace Sys2Proof

/-- The index of a wide register, 0..7 (R16, R53). -/
abbrev Reg := Fin 8

/-- The sixteen opcodes (R58). -/
inductive Opcode where
  | add | adc | sub | sbb | cmp
  | shl | shr | shli | shri | clz
  | mulf | mul64
  | div64 | div128 | divf | divw64
  deriving DecidableEq, Repr

/-- A decoded command. Operand order is the assembler's, destinations first (R64); the field each operand
comes from is its name (R53). -/
inductive Instr where
  /-- `ADD wd, wa, wb` (R67). -/
  | add (rd ra rb : Reg)
  /-- `ADC wd, wa, wb` (R68). -/
  | adc (rd ra rb : Reg)
  /-- `SUB wd, wa, wb` (R69). -/
  | sub (rd ra rb : Reg)
  /-- `SBB wd, wa, wb` (R70). -/
  | sbb (rd ra rb : Reg)
  /-- `CMP wa, wb` (R71). -/
  | cmp (ra rb : Reg)
  /-- `SHL wd, wa, wb`: the amount is the whole of `wb` (R73). -/
  | shl (rd ra rb : Reg)
  /-- `SHR wd, wa, wb`: the amount is the whole of `wb` (R74). -/
  | shr (rd ra rb : Reg)
  /-- `SHLI wd, wa, #imm` (R75). -/
  | shli (rd ra : Reg) (imm : BitVec 8)
  /-- `SHRI wd, wa, #imm` (R76). -/
  | shri (rd ra : Reg) (imm : BitVec 8)
  /-- `CLZ wd, wa` (R77). -/
  | clz (rd ra : Reg)
  /-- `MULF wlo, whi, wa, wb` (R79). -/
  | mulf (rd re ra rb : Reg)
  /-- `MUL64 wd, wa, wb`: uses `wb.lo` (R80). -/
  | mul64 (rd ra rb : Reg)
  /-- `DIV64 wq, wr, wa, wb`: uses `wb.lo` (R84). -/
  | div64 (rd re ra rb : Reg)
  /-- `DIV128 wq, wr, wa, wb` (R85). -/
  | div128 (rd re ra rb : Reg)
  /-- `DIVF wq, wr, wh, wl, wb`: `rc` is the dividend's high half, `ra` its low half (R86). -/
  | divf (rd re rc ra rb : Reg)
  /-- `DIVW64 wq, wr, wh, wl, wb`, and `DIVW64.R` when `rnd` is set: uses `wb.lo` (R87). -/
  | divw64 (rd re rc ra rb : Reg) (rnd : Bool)
  deriving DecidableEq, Repr

/-- The opcode of a command (R58). -/
def Instr.opcode : Instr → Opcode
  | .add _ _ _ => .add
  | .adc _ _ _ => .adc
  | .sub _ _ _ => .sub
  | .sbb _ _ _ => .sbb
  | .cmp _ _ => .cmp
  | .shl _ _ _ => .shl
  | .shr _ _ _ => .shr
  | .shli _ _ _ => .shli
  | .shri _ _ _ => .shri
  | .clz _ _ => .clz
  | .mulf _ _ _ _ => .mulf
  | .mul64 _ _ _ => .mul64
  | .div64 _ _ _ _ => .div64
  | .div128 _ _ _ _ => .div128
  | .divf _ _ _ _ _ => .divf
  | .divw64 _ _ _ _ _ _ => .divw64

end Sys2Proof
end

