-- ==== Sys2Proof/WellFormed.lean ====
section
/-! DEFINITION. When a command is one the encoding admits (spec/30_encoding.md R60). Register indices and the
immediate are bounded by their types (R53, R56), so the one check left is that the two destinations differ. -/

namespace Sys2Proof

/-- `RD` and `RE` of a command with two destinations (R60); `none` where there are not two. -/
def Instr.destinationPair : Instr → Option (Reg × Reg)
  | .mulf rd re _ _ => some (rd, re)
  | .div64 rd re _ _ => some (rd, re)
  | .div128 rd re _ _ => some (rd, re)
  | .divf rd re _ _ _ => some (rd, re)
  | .divw64 rd re _ _ _ _ => some (rd, re)
  | .add _ _ _ => none
  | .adc _ _ _ => none
  | .sub _ _ _ => none
  | .sbb _ _ _ => none
  | .cmp _ _ => none
  | .shl _ _ _ => none
  | .shr _ _ _ => none
  | .shli _ _ _ => none
  | .shri _ _ _ => none
  | .clz _ _ => none
  | .mul64 _ _ _ => none

/-- A command is well formed when it does not name one register as both destinations (R60). -/
def Instr.wf (i : Instr) : Bool :=
  match i.destinationPair with
  | some (rd, re) => rd != re
  | none => true

end Sys2Proof
end

