-- ==== Sys2Proof/Decode.lean ====
section
/-! DEFINITION. Decoding and encoding the command word (spec/30_encoding.md). `decode` is total on the 64-bit value
of a CMD write and names why a word is ILLEGAL (R61, R63). -/

namespace Sys2Proof

/-! ### Opcode numbers (R58) -/

/-- The OP value of an opcode (R58). -/
def Opcode.bits : Opcode → BitVec 6
  | .add => 0x01
  | .adc => 0x02
  | .sub => 0x03
  | .sbb => 0x04
  | .cmp => 0x05
  | .shl => 0x08
  | .shr => 0x09
  | .shli => 0x0A
  | .shri => 0x0B
  | .clz => 0x0C
  | .mulf => 0x10
  | .mul64 => 0x11
  | .div64 => 0x18
  | .div128 => 0x19
  | .divf => 0x1A
  | .divw64 => 0x1B

/-- The opcode an OP value names; every other value is reserved (R58). -/
def Opcode.ofBits (op : BitVec 6) : Option Opcode :=
  match op.toNat with
  | 0x01 => some .add
  | 0x02 => some .adc
  | 0x03 => some .sub
  | 0x04 => some .sbb
  | 0x05 => some .cmp
  | 0x08 => some .shl
  | 0x09 => some .shr
  | 0x0A => some .shli
  | 0x0B => some .shri
  | 0x0C => some .clz
  | 0x10 => some .mulf
  | 0x11 => some .mul64
  | 0x18 => some .div64
  | 0x19 => some .div128
  | 0x1A => some .divf
  | 0x1B => some .divw64
  | _ => none

/-! ### The one format (R52) -/

/-- The fields of a command word, high bits first (R52). -/
structure Fields where
  op : BitVec 6
  rd : Reg
  re : Reg
  ra : Reg
  rb : Reg
  rc : Reg
  rnd : Bool
  rsv : BitVec 2
  imm : BitVec 8
  deriving DecidableEq, Repr

/-- A 3-bit register field starting at bit `lo` of a word (R53). -/
def regField (cw : CmdWord) (lo : Nat) : Reg := (cw.extractLsb' lo 3).toFin

/-- The fields of a word: OP 31:26, RD 25:23, RE 22:20, RA 19:17, RB 16:14, RC 13:11, RND 10, RSV 9:8,
IMM8 7:0 (R52). -/
def unpack (cw : CmdWord) : Fields where
  op := cw.extractLsb' 26 6
  rd := regField cw 23
  re := regField cw 20
  ra := regField cw 17
  rb := regField cw 14
  rc := regField cw 11
  rnd := cw.getLsbD 10
  rsv := cw.extractLsb' 8 2
  imm := cw.extractLsb' 0 8

/-- The word with the given fields (R52). -/
def pack (f : Fields) : CmdWord :=
  f.op ++ BitVec.ofFin (w := 3) f.rd ++ BitVec.ofFin (w := 3) f.re ++ BitVec.ofFin (w := 3) f.ra
    ++ BitVec.ofFin (w := 3) f.rb ++ BitVec.ofFin (w := 3) f.rc ++ BitVec.ofBool f.rnd ++ f.rsv ++ f.imm

/-- Which fields an opcode uses; OP is always used and RSV never (R59). -/
structure FieldUse where
  rd : Bool
  re : Bool
  ra : Bool
  rb : Bool
  rc : Bool
  rnd : Bool
  imm : Bool
  deriving DecidableEq, Repr

/-- R59's table of used (`U`, here `true`) and must-be-zero (`0`, here `false`) fields, columns RD, RE, RA, RB,
RC, RND, IMM8. -/
def Opcode.uses : Opcode → FieldUse
  | .add => ⟨true, false, true, true, false, false, false⟩
  | .adc => ⟨true, false, true, true, false, false, false⟩
  | .sub => ⟨true, false, true, true, false, false, false⟩
  | .sbb => ⟨true, false, true, true, false, false, false⟩
  | .cmp => ⟨false, false, true, true, false, false, false⟩
  | .shl => ⟨true, false, true, true, false, false, false⟩
  | .shr => ⟨true, false, true, true, false, false, false⟩
  | .shli => ⟨true, false, true, false, false, false, true⟩
  | .shri => ⟨true, false, true, false, false, false, true⟩
  | .clz => ⟨true, false, true, false, false, false, false⟩
  | .mulf => ⟨true, true, true, true, false, false, false⟩
  | .mul64 => ⟨true, false, true, true, false, false, false⟩
  | .div64 => ⟨true, true, true, true, false, false, false⟩
  | .div128 => ⟨true, true, true, true, false, false, false⟩
  | .divf => ⟨true, true, true, true, true, false, false⟩
  | .divw64 => ⟨true, true, true, true, true, true, false⟩

/-- The fields that the used set marks `0` are zero, and so is RSV (R59, R61 point 3). -/
def Fields.unusedZero (f : Fields) (u : FieldUse) : Bool :=
  (u.rd || f.rd == 0) && (u.re || f.re == 0) && (u.ra || f.ra == 0) && (u.rb || f.rb == 0)
    && (u.rc || f.rc == 0) && (u.rnd || !f.rnd) && f.rsv == 0 && (u.imm || f.imm == 0)

/-- The command of an opcode with its operands from the fields (R53, R64). -/
def Fields.toInstr (f : Fields) : Opcode → Instr
  | .add => .add f.rd f.ra f.rb
  | .adc => .adc f.rd f.ra f.rb
  | .sub => .sub f.rd f.ra f.rb
  | .sbb => .sbb f.rd f.ra f.rb
  | .cmp => .cmp f.ra f.rb
  | .shl => .shl f.rd f.ra f.rb
  | .shr => .shr f.rd f.ra f.rb
  | .shli => .shli f.rd f.ra f.imm
  | .shri => .shri f.rd f.ra f.imm
  | .clz => .clz f.rd f.ra
  | .mulf => .mulf f.rd f.re f.ra f.rb
  | .mul64 => .mul64 f.rd f.ra f.rb
  | .div64 => .div64 f.rd f.re f.ra f.rb
  | .div128 => .div128 f.rd f.re f.ra f.rb
  | .divf => .divf f.rd f.re f.rc f.ra f.rb
  | .divw64 => .divw64 f.rd f.re f.rc f.ra f.rb f.rnd

/-! ### Decoding (R61, R63) -/

/-- Why a command word is ILLEGAL: the four points of R61, in its order. -/
inductive Illegal where
  /-- Bits 63:32 of the CMD write are not 0. -/
  | upperBits
  /-- OP is reserved. -/
  | reservedOp
  /-- A field the opcode does not use, or RSV, is not 0. -/
  | nonzeroField
  /-- RD = RE in a command with two destinations. -/
  | sameDestination
  deriving DecidableEq, Repr

/-- What a CMD value decodes to (R63). -/
inductive Decoded where
  | instr (i : Instr)
  | illegal (why : Illegal)
  deriving DecidableEq, Repr

/-- The command word of a CMD write: the low 32 bits of the value (R50). -/
def commandWord (v : Limb) : CmdWord := v.extractLsb' 0 32

/-- The decoder (R61, R63): total on the 64-bit value of a CMD write. -/
def decode (v : Limb) : Decoded :=
  if v.extractLsb' 32 32 ≠ 0#32 then .illegal .upperBits
  else
    let f := unpack (commandWord v)
    match Opcode.ofBits f.op with
    | none => .illegal .reservedOp
    | some o =>
      if f.unusedZero o.uses then
        if (f.toInstr o).wf then .instr (f.toInstr o) else .illegal .sameDestination
      else .illegal .nonzeroField

/-! ### Encoding -/

/-- The fields of a command, every unused one 0 (R59). -/
def Instr.fields : Instr → Fields
  | .add rd ra rb => ⟨Opcode.bits .add, rd, 0, ra, rb, 0, false, 0, 0⟩
  | .adc rd ra rb => ⟨Opcode.bits .adc, rd, 0, ra, rb, 0, false, 0, 0⟩
  | .sub rd ra rb => ⟨Opcode.bits .sub, rd, 0, ra, rb, 0, false, 0, 0⟩
  | .sbb rd ra rb => ⟨Opcode.bits .sbb, rd, 0, ra, rb, 0, false, 0, 0⟩
  | .cmp ra rb => ⟨Opcode.bits .cmp, 0, 0, ra, rb, 0, false, 0, 0⟩
  | .shl rd ra rb => ⟨Opcode.bits .shl, rd, 0, ra, rb, 0, false, 0, 0⟩
  | .shr rd ra rb => ⟨Opcode.bits .shr, rd, 0, ra, rb, 0, false, 0, 0⟩
  | .shli rd ra imm => ⟨Opcode.bits .shli, rd, 0, ra, 0, 0, false, 0, imm⟩
  | .shri rd ra imm => ⟨Opcode.bits .shri, rd, 0, ra, 0, 0, false, 0, imm⟩
  | .clz rd ra => ⟨Opcode.bits .clz, rd, 0, ra, 0, 0, false, 0, 0⟩
  | .mulf rd re ra rb => ⟨Opcode.bits .mulf, rd, re, ra, rb, 0, false, 0, 0⟩
  | .mul64 rd ra rb => ⟨Opcode.bits .mul64, rd, 0, ra, rb, 0, false, 0, 0⟩
  | .div64 rd re ra rb => ⟨Opcode.bits .div64, rd, re, ra, rb, 0, false, 0, 0⟩
  | .div128 rd re ra rb => ⟨Opcode.bits .div128, rd, re, ra, rb, 0, false, 0, 0⟩
  | .divf rd re rc ra rb => ⟨Opcode.bits .divf, rd, re, ra, rb, rc, false, 0, 0⟩
  | .divw64 rd re rc ra rb rnd => ⟨Opcode.bits .divw64, rd, re, ra, rb, rc, rnd, 0, 0⟩

/-- The command word of a well-formed command (R52, R59). -/
def encode (i : Instr) : CmdWord := pack i.fields

/-- The value a host writes to CMD to issue a command: its word, bits 63:32 zero (R50). -/
def encodeWrite (i : Instr) : Limb := (encode i).setWidth 64

/-! ### R59's match and mask columns -/

/-- The `match` column of R59. -/
def Opcode.pattern : Opcode → CmdWord
  | .add => 0x04000000
  | .adc => 0x08000000
  | .sub => 0x0C000000
  | .sbb => 0x10000000
  | .cmp => 0x14000000
  | .shl => 0x20000000
  | .shr => 0x24000000
  | .shli => 0x28000000
  | .shri => 0x2C000000
  | .clz => 0x30000000
  | .mulf => 0x40000000
  | .mul64 => 0x44000000
  | .div64 => 0x60000000
  | .div128 => 0x64000000
  | .divf => 0x68000000
  | .divw64 => 0x6C000000

/-- The `mask` column of R59. -/
def Opcode.mask : Opcode → CmdWord
  | .add => 0xFC703FFF
  | .adc => 0xFC703FFF
  | .sub => 0xFC703FFF
  | .sbb => 0xFC703FFF
  | .cmp => 0xFFF03FFF
  | .shl => 0xFC703FFF
  | .shr => 0xFC703FFF
  | .shli => 0xFC71FF00
  | .shri => 0xFC71FF00
  | .clz => 0xFC71FFFF
  | .mulf => 0xFC003FFF
  | .mul64 => 0xFC703FFF
  | .div64 => 0xFC003FFF
  | .div128 => 0xFC003FFF
  | .divf => 0xFC0007FF
  | .divw64 => 0xFC0003FF

/-- The opcodes with two destinations, in which RD must differ from RE (R60). -/
def Opcode.twoDestinations : Opcode → Bool
  | .mulf => true
  | .div64 => true
  | .div128 => true
  | .divf => true
  | .divw64 => true
  | .add => false
  | .adc => false
  | .sub => false
  | .sbb => false
  | .cmp => false
  | .shl => false
  | .shr => false
  | .shli => false
  | .shri => false
  | .clz => false
  | .mul64 => false

/-- R59's rule for selecting a mnemonic: `(cw & mask) == match`, bits 63:32 are 0, and R60 holds where it
applies. -/
def Opcode.selects (o : Opcode) (v : Limb) : Bool :=
  (commandWord v &&& o.mask == o.pattern) && v.extractLsb' 32 32 == 0#32
    && (!o.twoDestinations || (unpack (commandWord v)).rd != (unpack (commandWord v)).re)

/-! ### The host's question -/

/-- What the decoder reads from a table word of `nbits` bits, bit 0 the least significant, every bit above them
0. A command is one 32-bit word in the low half of the CMD value (R50, R51), so the table's numbering is the
value's own. -/
def decodeTableWord (nbits w : Nat) : Option Instr :=
  match decode (BitVec.ofNat 64 (w % 2 ^ nbits)) with
  | .instr i => some i
  | .illegal _ => none

end Sys2Proof
end

