-- ==== Sys2Proof/Config.lean ====
section
/-! DEFINITION. What is fixed for one WIDE128, and the values the spec leaves open (spec/00_scope.md R6, R7;
spec/93_implementation_defined.md section 3). An `opaque` constant has no body: nothing can be proved of its value. -/

namespace Sys2Proof

/-- Synchronous or asynchronous RESET (R107, `RESET_KIND`). -/
inductive ResetKind where
  | synchronous
  | asynchronous
  deriving DecidableEq, Repr, Inhabited

namespace Config

/-- `ID_VALUE` (R7, R29). -/
def idValue : Limb := 0x0000000000010128#64

/-- OPEN: which 256-byte page of the system's address space holds the window (R35). -/
opaque unitPage : Nat

/-- `UNIT_BASE`, a multiple of 256 (R35). -/
def unitBase : Nat := 256 * unitPage

/-- OPEN: the cycles of an opcode beyond the first (R117). It is a function of the opcode only. -/
opaque extraCycles : Opcode → Nat

/-- `LAT(op)`: finite, at least 1, dependent on the opcode only; no rule and no definition of the model depends
on its value (R117). -/
def lat (op : Opcode) : Nat := extraCycles op + 1

/-- OPEN: `RESET_KIND`; no host-visible value depends on it (R107). -/
opaque resetKind : ResetKind

/-- OPEN: when the unit can complete and the next input need not wait, whether completion goes first (R25, R45,
R100). The argument is the state's counter `turn`, so each choice is free of the ones before it. -/
opaque completionFirst : Nat → Bool

end Config

end Sys2Proof
end

