-- ==== Sys2Proof/Machine/State.lean ====
section
/-! DEFINITION. The state of WIDE128 (spec/10_state.md), the inputs the outside can give it, and its state after
reset (R33, R107). -/

namespace Sys2Proof.Machine

/-- FLAGS (R20). Bits 63:3 are reserved and hold nothing. -/
structure Flags where
  /-- Bit 0: the carry/borrow flag (R21). -/
  c : Bool
  /-- Bits 2:1: the result of the last CMP, or what the host wrote (R22). -/
  cmp : BitVec 2
  deriving DecidableEq, Repr

/-- STATUS (R23). Bits 3 and 63:8 are reserved and hold nothing. -/
structure Status where
  /-- Bit 0 (R24). -/
  busy : Bool
  /-- Bit 1 (R25). -/
  done : Bool
  /-- Bit 2 (R26). -/
  fault : Bool
  /-- Bits 7:4 (R26, R88). -/
  fcode : BitVec 4
  deriving DecidableEq, Repr

/-- CTRL (R27). Bits 63:2 are reserved and hold nothing. -/
structure Ctrl where
  /-- Bit 0: IRQ enable for DONE. -/
  doneIE : Bool
  /-- Bit 1: IRQ enable for FAULT. -/
  faultIE : Bool
  deriving DecidableEq, Repr

/-- The record of a command between issue and completion (R30): the opcode and the writes it will make. -/
structure InFlight where
  op : Opcode
  /-- The register writes: index and 128-bit value. -/
  regWrites : List (Reg × Wide)
  /-- The write of FLAGS.C, where the command makes one. -/
  carryWrite : Option Bool
  /-- The write of FLAGS.CMP, where the command makes one. -/
  cmpWrite : Option (BitVec 2)
  deriving DecidableEq, Repr

/-- One access of the host (R34). `width` is in bits; only 64-bit accesses at a multiple of 8 are admitted (R40),
and the value of a write that is not admitted is never used. -/
inductive HostAccess where
  | read (off : Offset) (width : Nat)
  | write (off : Offset) (width : Nat) (v : Limb)
  deriving DecidableEq, Repr

/-- What the outside can do to the unit: a host access (R34) or a RESET (R107). -/
inductive Input where
  | access (a : HostAccess)
  | reset
  deriving DecidableEq, Repr

/-- What the port answers to an access: the data of a read, a write taken (also one that was ignored), or a bus
error, which returns no data (R40). -/
inductive Response where
  | data (v : Limb)
  | written
  | busError
  deriving DecidableEq, Repr

/-- The unit's three fault causes (R88). They are the reasons a run has a fault outcome (R95, R116), read by
`Sys2Proof.Machine.runOutcome`. No step stops with one: raising it is the fault entry of R93, a next state, so a
claim about a state after a fault is about what the spec says that state is (safe). -/
inductive Fault where
  /-- The divisor is 0. Raised at issue by DIV64, DIV128, DIVF and DIVW64. -/
  | divideByZero
  /-- The quotient does not fit in 128 bits. Raised at issue by DIVF. -/
  | divideOverflow
  /-- The command word is ILLEGAL (R61). Raised at issue by any CMD write. -/
  | illegalCommand
  deriving DecidableEq, Repr

/-- Why a step can refuse. -/
inductive Refusal where
  /-- No meaning has been written for the instruction. No arm of `exec` answers it: every row of the opcode table
  has its meaning (safe). -/
  | notModelled (mnemonic : String)
  deriving DecidableEq, Repr

/-- The state. The first six fields are the spec's ("The complete state is W0..W7, FLAGS, STATUS, CTRL, the CMD
read-back value and IF", R32); the last three are the model's own. -/
structure State where
  /-- W0..W7 (R16). -/
  w : Vector Wide 8
  /-- FLAGS (R20). -/
  flags : Flags
  /-- STATUS (R23). -/
  status : Status
  /-- CTRL (R27). -/
  ctrl : Ctrl
  /-- The CMD read-back: the last accepted command word (R28). -/
  cmd : CmdWord
  /-- IF, the in-flight record (R30). -/
  inFlight : Option InFlight
  /-- MODEL: the inputs not yet performed, in the order the outside gives them (R45). DESIGN CHOICE, log entry 1. -/
  pending : List Input
  /-- MODEL: the port's answers so far, newest first (R116). DESIGN CHOICE, log entry 2. -/
  responses : List Response
  /-- MODEL: the counter that selects the next free choice (R25). DESIGN CHOICE, log entry 3. -/
  turn : Nat
  deriving DecidableEq, Repr

/-- The machine right after reset: the values of R33. The model's own fields start empty and at 0 (log entries
1, 2, 3). -/
def State.reset : State where
  w := Vector.replicate 8 0
  flags := ⟨false, 0⟩
  status := ⟨false, false, false, 0⟩
  ctrl := ⟨false, false⟩
  cmd := 0
  inFlight := none
  pending := []
  responses := []
  turn := 0

end Sys2Proof.Machine
end

