-- ==== Sys2Proof/Machine/Ops.lean ====
section
/-! DEFINITION. The shared operations: reading and writing the wide registers, issuing a command, taking a fault,
completing the command in flight, and reset. -/

namespace Sys2Proof.Machine

/-! ### Limbs and registers (R9, R16, R17) -/

/-- The low limb, bits 63..0 (R9). -/
def loLimb (v : Wide) : Limb := v.extractLsb' 0 64

/-- The high limb, bits 127..64 (R9). -/
def hiLimb (v : Wide) : Limb := v.extractLsb' 64 64

/-- The wide value `{lo,hi}` (R9). -/
def ofLimbs (lo hi : Limb) : Wide := hi ++ lo

/-- `W[i]` as a 128-bit value (R11, R17). -/
def State.readW (s : State) (i : Reg) : Wide := s.w[i]

/-- `W[i] <- v` (R11). No register is hardwired (R16). -/
def State.writeW (s : State) (i : Reg) (v : Wide) : State := { s with w := s.w.set i v }

/-! ### Status -/

/-- `STATUS.BUSY`. -/
def State.busy (s : State) : Bool := s.status.busy

/-- `STATUS.FAULT`: the fault state. -/
def State.faulted (s : State) : Bool := s.status.fault

/-- A CMD write performed now is accepted and issues its word: FAULT = 0 and BUSY = 0 (R28, R110). -/
def State.accepts (s : State) : Bool := !s.status.fault && !s.status.busy

/-- The interrupt output, a function of the state at every step (R99). -/
def State.irq (s : State) : Bool :=
  (s.status.done && s.ctrl.doneIE) || (s.status.fault && s.ctrl.faultIE)

/-! ### Issue, fault entry, completion (R93, R110, R111) -/

/-- Step 5 of an issue: record the writes and set BUSY (R24, R30, R110). -/
def State.launch (s : State) (r : InFlight) : State :=
  { s with inFlight := some r, status := { s.status with busy := true } }

/-- `FCODE` of a fault (R88). -/
def Fault.code : Fault → BitVec 4
  | .divideByZero => 1
  | .divideOverflow => 2
  | .illegalCommand => 3

/-- Fault entry (R93): FAULT and FCODE are set and nothing else changes. The third assignment of R93, the CMD
read-back, is step 1 of every issue (R110) and stands when a fault is raised. -/
def State.enterFault (s : State) (k : Fault) : State :=
  { s with status := { s.status with fault := true, fcode := k.code } }

/-- The outcome of an issue that raises a fault: the state after fault entry (R93). -/
def State.raise (s : State) (k : Fault) : Host.Outcome State Fault Refusal := .next (s.enterFault k)

/-- The outcome of an issue that raises no fault: the command is in flight (R110 step 5). -/
def State.issue (s : State) (r : InFlight) : Host.Outcome State Fault Refusal := .next (s.launch r)

/-- The check of R60 for a command with two destinations. RD = RE makes the word ILLEGAL, before any operand
condition (R61, R92); the decoder already refuses such a word. -/
def State.withDistinct (s : State) (rd re : Reg) (go : Host.Outcome State Fault Refusal) :
    Host.Outcome State Fault Refusal :=
  if rd = re then s.raise .illegalCommand else go

/-- The record of a command that writes one register and no flag. -/
def oneWrite (op : Opcode) (rd : Reg) (v : Wide) : InFlight :=
  { op := op, regWrites := [(rd, v)], carryWrite := none, cmpWrite := none }

/-- The record of a command that writes two registers and no flag. -/
def twoWrites (op : Opcode) (rd re : Reg) (v u : Wide) : InFlight :=
  { op := op, regWrites := [(rd, v), (re, u)], carryWrite := none, cmpWrite := none }

/-- The record of an addition or subtraction: one register and FLAGS.C (R21). -/
def carryWrites (op : Opcode) (rd : Reg) (r : Wide × Bool) : InFlight :=
  { op := op, regWrites := [(rd, r.1)], carryWrite := some r.2, cmpWrite := none }

/-- The register writes of a record, in list order. The encoding admits no two writes to one register (R60). -/
def State.applyWrites (s : State) (ws : List (Reg × Wide)) : State :=
  ws.foldl (fun t p => t.writeW p.1 p.2) s

/-- The flags after a record's flag writes; a flag the record does not write keeps its value (R21, R22). -/
def InFlight.flagsAfter (r : InFlight) (f : Flags) : Flags :=
  { c := r.carryWrite.getD f.c, cmp := r.cmpWrite.getD f.cmp }

/-- Completion (R111), the unit's own step, enabled exactly when a command is in flight: one atomic step that
performs the writes, clears IF and BUSY and sets DONE. Where nothing is in flight it changes nothing. -/
def State.complete (s : State) : State :=
  match s.inFlight with
  | none => s
  | some r =>
    { s.applyWrites r.regWrites with
      flags := r.flagsAfter s.flags
      inFlight := none
      status := { s.status with busy := false, done := true } }

/-! ### Reset (R107) -/

/-- RESET: every piece of the unit's state takes its reset value; a command in flight is abandoned and writes
nothing (R33, R107). The host's own side of the model, which is no state of the unit, stays. -/
def State.applyReset (s : State) : State :=
  { State.reset with pending := s.pending, responses := s.responses, turn := s.turn }

end Sys2Proof.Machine
end

