-- ==== Sys2Proof/Machine/Operands.lean ====
section
/-! DEFINITION. The operand forms (spec/30_encoding.md R54 to R56; spec/43_divide.md R86, R87). All of them read the
state at issue (R31). -/

namespace Sys2Proof.Machine

/-- A wide operand named by RA, RB or RC: the whole register (R54). -/
def wideOperand (s : State) (r : Reg) : Wide := s.readW r

/-- The 64-bit operand of MUL64, DIV64 and DIVW64: `W[RB].lo`; the high limb is ignored (R55). -/
def narrowOperand (s : State) (r : Reg) : Limb := loLimb (s.readW r)

/-- The shift amount of SHL and SHR: the whole register as an unsigned number (R56). -/
def registerAmount (s : State) (r : Reg) : Nat := (s.readW r).toNat

/-- The shift amount of SHLI and SHRI: IMM8, zero-extended (R56). -/
def immediateAmount (imm : BitVec 8) : Nat := imm.toNat

/-- The 256-bit dividend of DIVF and DIVW64: `W[RC]·2^128 + W[RA]` (R53, R86, R87). -/
def wideDividend (s : State) (rc ra : Reg) : Nat := (s.readW rc).toNat * 2 ^ 128 + (s.readW ra).toNat

end Sys2Proof.Machine
end

