-- ==== Sys2Proof/Machine/Flags.lean ====
section
/-! DEFINITION. The flag computations and the results they belong to (spec/40_add_sub_cmp.md), and the 64-bit views
of FLAGS, STATUS and CTRL (spec/10_state.md R20, R23, R27). -/

namespace Sys2Proof.Machine

/-! ### Carry, borrow and comparison -/

/-- A sum with its carry-in: the low 128 bits and `s[128]` (R67, R68). -/
def addWithCarry (a b : Wide) (cin : Bool) : Wide × Bool :=
  let s := a.toNat + b.toNat + cin.toNat
  (trunc128 s, s.testBit 128)

/-- A difference with its borrow-in: modulo 2^128, and the exact comparison `a < b + bin` (R69, R70). -/
def subWithBorrow (a b : Wide) (bin : Bool) : Wide × Bool :=
  (trunc128 (a.toNat + 2 ^ 128 - (b.toNat + bin.toNat)), decide (a.toNat < b.toNat + bin.toNat))

/-- The comparison's result, -1, 0 or 1: high limb first (R71). -/
def compareLimbs (a b : Wide) : Int :=
  if hiLimb a ≠ hiLimb b then (if (hiLimb b).toNat < (hiLimb a).toNat then 1 else -1)
  else if loLimb a ≠ loLimb b then (if (loLimb b).toNat < (loLimb a).toNat then 1 else -1)
  else 0

/-- FLAGS.CMP of a comparison's result: 2-bit two's complement (R22, R71). -/
def cmpCode (r : Int) : BitVec 2 :=
  if r = 1 then 0b01 else if r = -1 then 0b11 else 0b00

/-! ### The registers' 64-bit views -/

/-- FLAGS as a word: reserved bits read 0 (R20). -/
def Flags.toWord (f : Flags) : Limb := (f.cmp ++ BitVec.ofBool f.c).setWidth 64

/-- FLAGS after a host write: C and CMP take bits 0 and 2:1, the rest is ignored (R20, R22). -/
def Flags.ofWord (v : Limb) : Flags := { c := v.getLsbD 0, cmp := v.extractLsb' 1 2 }

/-- STATUS as a word: FCODE, a reserved 0, FAULT, DONE, BUSY; the other bits read 0 (R23). -/
def Status.toWord (t : Status) : Limb :=
  (t.fcode ++ 0#1 ++ BitVec.ofBool t.fault ++ BitVec.ofBool t.done ++ BitVec.ofBool t.busy).setWidth 64

/-- STATUS after a host write: bit 1 = 1 clears DONE, and nothing else responds (R23, R25, R26). -/
def Status.afterWrite (t : Status) (v : Limb) : Status := { t with done := t.done && !v.getLsbD 1 }

/-- CTRL as a word: reserved bits read 0 (R27). -/
def Ctrl.toWord (c : Ctrl) : Limb := (BitVec.ofBool c.faultIE ++ BitVec.ofBool c.doneIE).setWidth 64

/-- CTRL after a host write (R27). -/
def Ctrl.ofWord (v : Limb) : Ctrl := { doneIE := v.getLsbD 0, faultIE := v.getLsbD 1 }

end Sys2Proof.Machine
end

