-- ==== Sys2Proof/Machine/AddSub.lean ====
section
/-! DEFINITION. Addition, subtraction and comparison (spec/40_add_sub_cmp.md). Each meaning is the issue of the
command: it reads its operands and records its writes (R31, R110). -/

namespace Sys2Proof.Machine

/-- ADD (R67). -/
def execAdd (rd ra rb : Reg) (s : State) : Host.Outcome State Fault Refusal :=
  s.issue (carryWrites .add rd (addWithCarry (wideOperand s ra) (wideOperand s rb) false))

/-- ADC (R68): the carry-in is FLAGS.C at issue (R21, R31). -/
def execAdc (rd ra rb : Reg) (s : State) : Host.Outcome State Fault Refusal :=
  s.issue (carryWrites .adc rd (addWithCarry (wideOperand s ra) (wideOperand s rb) s.flags.c))

/-- SUB (R69). -/
def execSub (rd ra rb : Reg) (s : State) : Host.Outcome State Fault Refusal :=
  s.issue (carryWrites .sub rd (subWithBorrow (wideOperand s ra) (wideOperand s rb) false))

/-- SBB (R70): the borrow-in is FLAGS.C at issue (R21, R31). -/
def execSbb (rd ra rb : Reg) (s : State) : Host.Outcome State Fault Refusal :=
  s.issue (carryWrites .sbb rd (subWithBorrow (wideOperand s ra) (wideOperand s rb) s.flags.c))

/-- CMP (R71): writes FLAGS.CMP only. -/
def execCmp (ra rb : Reg) (s : State) : Host.Outcome State Fault Refusal :=
  s.issue
    { op := .cmp, regWrites := [], carryWrite := none,
      cmpWrite := some (cmpCode (compareLimbs (wideOperand s ra) (wideOperand s rb))) }

end Sys2Proof.Machine
end

