-- ==== Sys2Proof/Machine/Divide.lean ====
section
/-! DEFINITION. Division (spec/43_divide.md). Every division is unsigned floor division; a faulting one makes no
write (R81, R94). No command of this family writes FLAGS. -/

namespace Sys2Proof.Machine

/-- The fault of a zero divisor, ahead of everything that divides by it (R81, R92). -/
def State.withDivisor (s : State) (d : Nat) (go : Host.Outcome State Fault Refusal) :
    Host.Outcome State Fault Refusal :=
  if d = 0 then s.raise .divideByZero else go

/-- Round-half-up (R82): the truncated quotient `q` is incremented, modulo 2^128, when rounding is selected and
`2·r ≥ d` exactly. -/
def roundHalfUp (rnd : Bool) (q r d : Nat) : Wide :=
  if rnd ∧ d ≤ 2 * r then trunc128 (q + 1) else trunc128 q

/-- DIV64 (R84): the divisor is `W[RB].lo`; the remainder is zero-extended. -/
def execDiv64 (rd re ra rb : Reg) (s : State) : Host.Outcome State Fault Refusal :=
  let n := (wideOperand s ra).toNat
  let d := (narrowOperand s rb).toNat
  s.withDistinct rd re
    (s.withDivisor d (s.issue (twoWrites .div64 rd re (trunc128 (n / d)) (trunc128 (n % d)))))

/-- DIV128 (R85). -/
def execDiv128 (rd re ra rb : Reg) (s : State) : Host.Outcome State Fault Refusal :=
  let n := (wideOperand s ra).toNat
  let d := (wideOperand s rb).toNat
  s.withDistinct rd re
    (s.withDivisor d (s.issue (twoWrites .div128 rd re (trunc128 (n / d)) (trunc128 (n % d)))))

/-- DIVF (R86): DIVIDE_OVERFLOW when `hi ≥ d`, after the check for a zero divisor (R92). -/
def execDivf (rd re rc ra rb : Reg) (s : State) : Host.Outcome State Fault Refusal :=
  let n := wideDividend s rc ra
  let d := (wideOperand s rb).toNat
  s.withDistinct rd re
    (s.withDivisor d
      (if d ≤ (wideOperand s rc).toNat then s.raise .divideOverflow
        else s.issue (twoWrites .divf rd re (trunc128 (n / d)) (trunc128 (n % d)))))

/-- DIVW64 (R87): the quotient is truncated to 128 bits without a fault, then rounded where `rnd` is set (R82); the
remainder is the truncated division's, zero-extended. -/
def execDivw64 (rd re rc ra rb : Reg) (rnd : Bool) (s : State) : Host.Outcome State Fault Refusal :=
  let n := wideDividend s rc ra
  let d := (narrowOperand s rb).toNat
  s.withDistinct rd re
    (s.withDivisor d
      (s.issue
        (twoWrites .divw64 rd re (roundHalfUp rnd (trunc128 (n / d)).toNat (n % d) d) (trunc128 (n % d)))))

end Sys2Proof.Machine
end

