-- ==== Sys2Proof/Machine/Multiply.lean ====
section
/-! DEFINITION. Multiplication (spec/42_multiply.md). Products are exact; neither command writes FLAGS or faults on
a legal word (R78). -/

namespace Sys2Proof.Machine

/-- MULF (R79): the 256-bit product, its low half to RD and its high half to RE. -/
def execMulf (rd re ra rb : Reg) (s : State) : Host.Outcome State Fault Refusal :=
  let p := (wideOperand s ra).toNat * (wideOperand s rb).toNat
  s.withDistinct rd re (s.issue (twoWrites .mulf rd re (trunc128 p) (trunc128 (p / 2 ^ 128))))

/-- MUL64 (R80): the product with `W[RB].lo`, truncated to 128 bits. -/
def execMul64 (rd ra rb : Reg) (s : State) : Host.Outcome State Fault Refusal :=
  s.issue (oneWrite .mul64 rd (trunc128 ((wideOperand s ra).toNat * (narrowOperand s rb).toNat)))

end Sys2Proof.Machine
end

