-- ==== Sys2Proof/Machine/Shift.lean ====
section
/-! DEFINITION. Shifts and the leading-zero count (spec/41_shift_clz.md). No command of this family writes FLAGS
(R72). -/

namespace Sys2Proof.Machine

/-- The left shift (R73, R75): an amount of 128 or more gives 0 (R72). -/
def shiftLeft (a : Wide) (n : Nat) : Wide := if 128 ≤ n then 0 else trunc128 (a.toNat * 2 ^ n)

/-- The logical right shift (R74, R76): an amount of 128 or more gives 0 (R72). -/
def shiftRight (a : Wide) (n : Nat) : Wide := if 128 ≤ n then 0 else trunc128 (a.toNat / 2 ^ n)

/-- The leading zeros of a nonzero limb: `63 − floor(log2 x)` (R77). -/
def clz64 (x : Limb) : Nat := 63 - Nat.log2 x.toNat

/-- The leading zeros of a wide value, high limb first; 128 for 0 (R77). -/
def clz (a : Wide) : Nat :=
  if hiLimb a ≠ 0#64 then clz64 (hiLimb a)
  else if loLimb a ≠ 0#64 then 64 + clz64 (loLimb a)
  else 128

/-- SHL (R73). -/
def execShl (rd ra rb : Reg) (s : State) : Host.Outcome State Fault Refusal :=
  s.issue (oneWrite .shl rd (shiftLeft (wideOperand s ra) (registerAmount s rb)))

/-- SHR (R74). -/
def execShr (rd ra rb : Reg) (s : State) : Host.Outcome State Fault Refusal :=
  s.issue (oneWrite .shr rd (shiftRight (wideOperand s ra) (registerAmount s rb)))

/-- SHLI (R75). -/
def execShli (rd ra : Reg) (imm : BitVec 8) (s : State) : Host.Outcome State Fault Refusal :=
  s.issue (oneWrite .shli rd (shiftLeft (wideOperand s ra) (immediateAmount imm)))

/-- SHRI (R76). -/
def execShri (rd ra : Reg) (imm : BitVec 8) (s : State) : Host.Outcome State Fault Refusal :=
  s.issue (oneWrite .shri rd (shiftRight (wideOperand s ra) (immediateAmount imm)))

/-- CLZ (R77). -/
def execClz (rd ra : Reg) (s : State) : Host.Outcome State Fault Refusal :=
  s.issue (oneWrite .clz rd (trunc128 (clz (wideOperand s ra))))

end Sys2Proof.Machine
end

