-- ==== Sys2Proof/Machine/Dispatch.lean ====
section
/-! DEFINITION. `exec`: the issue of one decoded command (spec/70_reset_and_hazards.md R110 steps 3 to 5), one arm per
row of spec/opcode_table.json. -/

namespace Sys2Proof.Machine

def exec (i : Instr) (s : State) : Host.Outcome State Fault Refusal :=
  match i with
  | .add rd ra rb => Sys2Proof.Machine.execAdd rd ra rb s
  | .adc rd ra rb => Sys2Proof.Machine.execAdc rd ra rb s
  | .sub rd ra rb => Sys2Proof.Machine.execSub rd ra rb s
  | .sbb rd ra rb => Sys2Proof.Machine.execSbb rd ra rb s
  | .cmp ra rb => Sys2Proof.Machine.execCmp ra rb s
  | .shl rd ra rb => Sys2Proof.Machine.execShl rd ra rb s
  | .shr rd ra rb => Sys2Proof.Machine.execShr rd ra rb s
  | .shli rd ra imm => Sys2Proof.Machine.execShli rd ra imm s
  | .shri rd ra imm => Sys2Proof.Machine.execShri rd ra imm s
  | .clz rd ra => Sys2Proof.Machine.execClz rd ra s
  | .mulf rd re ra rb => Sys2Proof.Machine.execMulf rd re ra rb s
  | .mul64 rd ra rb => Sys2Proof.Machine.execMul64 rd ra rb s
  | .div64 rd re ra rb => Sys2Proof.Machine.execDiv64 rd re ra rb s
  | .div128 rd re ra rb => Sys2Proof.Machine.execDiv128 rd re ra rb s
  | .divf rd re rc ra rb => Sys2Proof.Machine.execDivf rd re rc ra rb s
  | .divw64 rd re rc ra rb rnd => Sys2Proof.Machine.execDivw64 rd re rc ra rb rnd s

end Sys2Proof.Machine
end

