-- ==== Sys2Proof/Machine/Window.lean ====
section
/-! DEFINITION. The host register window (spec/20_memory.md): the map, what a read returns, what a write does, and the
issue of a CMD write (spec/70_reset_and_hazards.md R110). -/

namespace Sys2Proof.Machine

/-! ### The map (R36) -/

/-- What stands at a window offset (R36). -/
inductive WindowReg where
  | wLo (n : Reg)
  | wHi (n : Reg)
  | cmd
  | status
  | flags
  | ctrl
  | id
  | reserved
  deriving DecidableEq, Repr

/-- The register of the 64-bit word that holds an offset (R36, R37): bits 7:3 select the word. -/
def windowReg (off : Offset) : WindowReg :=
  if off.getLsbD 7 then
    match (off.extractLsb' 3 4).toNat with
    | 0 => .cmd
    | 1 => .status
    | 2 => .flags
    | 3 => .ctrl
    | 4 => .id
    | _ => .reserved
  else if off.getLsbD 3 then .wHi (off.extractLsb' 4 3).toFin
  else .wLo (off.extractLsb' 4 3).toFin

/-- Which registers the interlock holds while BUSY (R36, R112). -/
def WindowReg.heldWhileBusy : WindowReg → Bool
  | .wLo _ => true
  | .wHi _ => true
  | .cmd => true
  | .flags => true
  | .status => false
  | .ctrl => false
  | .id => false
  | .reserved => false

/-- The system address of an offset (R35). -/
def systemAddress (off : Offset) : Nat := Config.unitBase + off.toNat

/-- The offset of a system address that lies in the window (R35). -/
def offsetAt (addr : Nat) : Option Offset :=
  if Config.unitBase ≤ addr ∧ addr < Config.unitBase + 256 then some (BitVec.ofNat 8 (addr - Config.unitBase))
  else none

/-! ### Accesses (R34, R40) -/

/-- The offset of an access. -/
def HostAccess.off : HostAccess → Offset
  | .read off _ => off
  | .write off _ _ => off

/-- The width of an access in bits. -/
def HostAccess.width : HostAccess → Nat
  | .read _ width => width
  | .write _ width _ => width

/-- The only admitted access is 64 bits wide at a multiple of 8 (R40). -/
def HostAccess.admitted (a : HostAccess) : Bool := a.width == 64 && a.off.extractLsb' 0 3 == 0#3

/-! ### Reads -/

/-- The 64-bit value of a window register (R20, R23, R27, R28, R29, R36, R37). -/
def State.windowValue (s : State) : WindowReg → Limb
  | .wLo n => loLimb (s.readW n)
  | .wHi n => hiLimb (s.readW n)
  | .cmd => s.cmd.setWidth 64
  | .status => s.status.toWord
  | .flags => s.flags.toWord
  | .ctrl => s.ctrl.toWord
  | .id => Config.idValue
  | .reserved => 0

/-- `HostRead` of an admitted offset: the value only, because a read has no side effect (R34, R42). -/
def State.hostRead (s : State) (off : Offset) : Limb := s.windowValue (windowReg off)

/-- Byte lane `k` of a word: bits 8k+7..8k (R39). -/
def byteLane (v : Limb) (k : Fin 8) : BitVec 8 := v.extractLsb' (8 * k.val) 8

/-- The byte at an offset of the window, where a bus binding presents byte lanes: little-endian (R39). -/
def State.windowByte (s : State) (off : Offset) : BitVec 8 :=
  byteLane (s.hostRead off) (off.extractLsb' 0 3).toFin

/-! ### Writes -/

/-- A write to the low limb of a register leaves its high limb (R16, R41). -/
def State.writeLo (s : State) (n : Reg) (v : Limb) : State :=
  s.writeW n (ofLimbs v (hiLimb (s.readW n)))

/-- A write to the high limb of a register leaves its low limb (R16, R41). -/
def State.writeHi (s : State) (n : Reg) (v : Limb) : State :=
  s.writeW n (ofLimbs (loLimb (s.readW n)) v)

/-- In the fault state, writes to W, FLAGS and CMD are ignored (R38, R95). -/
def State.unlessFaulted (s : State) (go : Host.Outcome State Fault Refusal) : Host.Outcome State Fault Refusal :=
  if s.faulted then .next s else go

/-- The issue of an accepted CMD write (R110): step 1 sets the read-back, step 2 decodes, and `exec` makes the
operand reads, the fault checks and the launch. -/
def State.issueWord (s : State) (v : Limb) : Host.Outcome State Fault Refusal :=
  let s₁ : State := { s with cmd := commandWord v }
  match decode v with
  | .illegal _ => s₁.raise .illegalCommand
  | .instr i => exec i s₁

/-- A write to a window register (R36, R37, R38). -/
def State.writeWindow (s : State) (r : WindowReg) (v : Limb) : Host.Outcome State Fault Refusal :=
  match r with
  | .wLo n => s.unlessFaulted (.next (s.writeLo n v))
  | .wHi n => s.unlessFaulted (.next (s.writeHi n v))
  | .cmd => s.unlessFaulted (s.issueWord v)
  | .flags => s.unlessFaulted (.next { s with flags := Flags.ofWord v })
  | .status => .next { s with status := s.status.afterWrite v }
  | .ctrl => .next { s with ctrl := Ctrl.ofWord v }
  | .id => .next s
  | .reserved => .next s

/-- `HostWrite` of an admitted offset (R34). -/
def State.hostWrite (s : State) (off : Offset) (v : Limb) : Host.Outcome State Fault Refusal :=
  s.writeWindow (windowReg off) v

/-! ### Performing an input -/

/-- Record the port's answer (log entry 2). -/
def State.respond (s : State) (r : Response) : State := { s with responses := r :: s.responses }

/-- The value a read returned; the answer to a write and a bus error are none (R40, R116). -/
def Response.readValue : Response → Option Limb
  | .data v => some v
  | .written => none
  | .busError => none

/-- The values the host's reads returned, in the order of the reads (R116). -/
def State.readValues (s : State) : List Limb := (s.responses.filterMap Response.readValue).reverse

/-- Perform one access: an access that is not admitted gets a bus error and changes no state (R40). -/
def State.performAccess (s : State) (a : HostAccess) : Host.Outcome State Fault Refusal :=
  if a.admitted then
    match a with
    | .read off _ => .next (s.respond (.data (s.hostRead off)))
    | .write off _ v => (s.respond .written).hostWrite off v
  else .next (s.respond .busError)

/-- Perform one input: an access (R34) or a RESET (R107). -/
def State.perform (s : State) : Input → Host.Outcome State Fault Refusal
  | .access a => s.performAccess a
  | .reset => .next s.applyReset

/-- The input is held: it is an admitted access to W, CMD or FLAGS and BUSY = 1 (R112). -/
def State.holds (s : State) : Input → Bool
  | .access a => s.busy && a.admitted && (windowReg a.off).heldWhileBusy
  | .reset => false

end Sys2Proof.Machine
end

