-- ==== Sys2Proof/Machine/Schedule.lean ====
section
/-! DEFINITION. Who moves next (spec/20_memory.md R45; spec/70_reset_and_hazards.md R111, R112). -/

namespace Sys2Proof.Machine

/-- Take the next free choice: the counter advances (log entry 3). -/
def State.nextTurn (s : State) : State := { s with turn := s.turn + 1 }

/-- Take the first input off the pending list. -/
def State.dropPending (s : State) (rest : List Input) : State := { s with pending := rest }

/-- One step under a given choice function. A held input waits for the completion step (R112). Where a command is in
flight and the next input is not held, the choice decides which goes first (R45, V11). With nothing pending the
command in flight completes (R111), and an idle unit does nothing (R106). -/
def stepWith (first : Nat → Bool) (s : State) : Host.Outcome State Fault Refusal :=
  match s.pending with
  | [] => .next s.complete
  | inp :: rest =>
    if s.holds inp then .next s.complete
    else if s.inFlight.isSome then
      if first s.turn then .next s.nextTurn.complete
      else (s.nextTurn.dropPending rest).perform inp
    else (s.dropPending rest).perform inp

end Sys2Proof.Machine
end

