-- ==== Sys2Proof/Machine/Step.lean ====
section
/-! DEFINITION. The step, and how a command is placed where the next step runs it. -/

namespace Sys2Proof.Machine

/-- One step of the machine: the moves of `stepWith` under the configuration's free choice (R45). -/
def step (s : State) : Host.Outcome State Fault Refusal := stepWith Config.completionFirst s

/-- The state with a CMD write of the word as the first pending input. WIDE128 fetches nothing: a command is the
data of the host's write to CMD at offset 0x80 (R18, R28, R48, R50; log entry 8). -/
def State.withFetchWord (s : State) (nbits w : Nat) : State :=
  { s with pending := .access (.write 0x80 64 (BitVec.ofNat 64 (w % 2 ^ nbits))) :: s.pending }

end Sys2Proof.Machine
end

