-- ==== Sys2Proof/Machine/Assembler.lean ====
section
/-! DEFINITION. The assembler's forms (spec/30_encoding.md R64): a mnemonic, the suffix `.R`, and operands. It is no
part of the hardware (spec/92_eei_decisions.md D41). -/

namespace Sys2Proof

/-- An operand as written: `w<n>` or `#<n>` (R64). -/
inductive AsmOperand where
  | reg (n : Nat)
  | imm (n : Nat)
  deriving DecidableEq, Repr

/-- A line of assembly: mnemonic, suffix `.R`, operands (R64). -/
structure AsmLine where
  op : Opcode
  suffixR : Bool
  args : List AsmOperand
  deriving DecidableEq, Repr

/-- A register name; one outside w0..w7 is rejected (R64). -/
def asmReg (n : Nat) : Option Reg := if h : n < 8 then some ⟨n, h⟩ else none

/-- An immediate; one outside 0..255 is rejected (R64). -/
def asmImm (n : Nat) : Option (BitVec 8) := if n < 256 then some (BitVec.ofNat 8 n) else none

/-- The command of a three-register line. -/
def asmThree (mk : Reg → Reg → Reg → Instr) : List AsmOperand → Option Instr
  | [.reg d, .reg a, .reg b] => do return mk (← asmReg d) (← asmReg a) (← asmReg b)
  | _ => none

/-- The command of a two-register line. -/
def asmTwo (mk : Reg → Reg → Instr) : List AsmOperand → Option Instr
  | [.reg a, .reg b] => do return mk (← asmReg a) (← asmReg b)
  | _ => none

/-- The command of a line with an immediate. -/
def asmShift (mk : Reg → Reg → BitVec 8 → Instr) : List AsmOperand → Option Instr
  | [.reg d, .reg a, .imm n] => do return mk (← asmReg d) (← asmReg a) (← asmImm n)
  | _ => none

/-- The command of a four-register line. -/
def asmFour (mk : Reg → Reg → Reg → Reg → Instr) : List AsmOperand → Option Instr
  | [.reg d, .reg e, .reg a, .reg b] => do
    return mk (← asmReg d) (← asmReg e) (← asmReg a) (← asmReg b)
  | _ => none

/-- The command of a five-register line. -/
def asmFive (mk : Reg → Reg → Reg → Reg → Reg → Instr) : List AsmOperand → Option Instr
  | [.reg d, .reg e, .reg h, .reg l, .reg b] => do
    return mk (← asmReg d) (← asmReg e) (← asmReg h) (← asmReg l) (← asmReg b)
  | _ => none

/-- The command a line stands for, by R64's table of operand orders. -/
def AsmLine.instr? (l : AsmLine) : Option Instr :=
  match l.op with
  | .add => asmThree .add l.args
  | .adc => asmThree .adc l.args
  | .sub => asmThree .sub l.args
  | .sbb => asmThree .sbb l.args
  | .cmp => asmTwo .cmp l.args
  | .shl => asmThree .shl l.args
  | .shr => asmThree .shr l.args
  | .shli => asmShift .shli l.args
  | .shri => asmShift .shri l.args
  | .clz => asmTwo .clz l.args
  | .mulf => asmFour .mulf l.args
  | .mul64 => asmThree .mul64 l.args
  | .div64 => asmFour .div64 l.args
  | .div128 => asmFour .div128 l.args
  | .divf => asmFive .divf l.args
  | .divw64 => asmFive (fun d e h l' b => .divw64 d e h l' b l.suffixR) l.args

/-- The assembler (R64): it rejects a bad register name, a bad immediate, RD = RE in a two-destination form, and the
suffix `.R` on anything but DIVW64. -/
def AsmLine.assemble (l : AsmLine) : Option CmdWord :=
  match l.instr? with
  | none => none
  | some i => if i.wf && (!l.suffixR || l.op == .divw64) then some (encode i) else none

/-- The line of a command (R64). -/
def Instr.asmLine : Instr → AsmLine
  | .add d a b => ⟨.add, false, [.reg d, .reg a, .reg b]⟩
  | .adc d a b => ⟨.adc, false, [.reg d, .reg a, .reg b]⟩
  | .sub d a b => ⟨.sub, false, [.reg d, .reg a, .reg b]⟩
  | .sbb d a b => ⟨.sbb, false, [.reg d, .reg a, .reg b]⟩
  | .cmp a b => ⟨.cmp, false, [.reg a, .reg b]⟩
  | .shl d a b => ⟨.shl, false, [.reg d, .reg a, .reg b]⟩
  | .shr d a b => ⟨.shr, false, [.reg d, .reg a, .reg b]⟩
  | .shli d a n => ⟨.shli, false, [.reg d, .reg a, .imm n.toNat]⟩
  | .shri d a n => ⟨.shri, false, [.reg d, .reg a, .imm n.toNat]⟩
  | .clz d a => ⟨.clz, false, [.reg d, .reg a]⟩
  | .mulf d e a b => ⟨.mulf, false, [.reg d, .reg e, .reg a, .reg b]⟩
  | .mul64 d a b => ⟨.mul64, false, [.reg d, .reg a, .reg b]⟩
  | .div64 d e a b => ⟨.div64, false, [.reg d, .reg e, .reg a, .reg b]⟩
  | .div128 d e a b => ⟨.div128, false, [.reg d, .reg e, .reg a, .reg b]⟩
  | .divf d e h l b => ⟨.divf, false, [.reg d, .reg e, .reg h, .reg l, .reg b]⟩
  | .divw64 d e h l b rnd => ⟨.divw64, rnd, [.reg d, .reg e, .reg h, .reg l, .reg b]⟩

/-- The mnemonic of an opcode (R58). -/
def Opcode.mnemonic : Opcode → String
  | .add => "ADD"
  | .adc => "ADC"
  | .sub => "SUB"
  | .sbb => "SBB"
  | .cmp => "CMP"
  | .shl => "SHL"
  | .shr => "SHR"
  | .shli => "SHLI"
  | .shri => "SHRI"
  | .clz => "CLZ"
  | .mulf => "MULF"
  | .mul64 => "MUL64"
  | .div64 => "DIV64"
  | .div128 => "DIV128"
  | .divf => "DIVF"
  | .divw64 => "DIVW64"

/-- An operand's text: `w<n>` or a decimal `#<n>` (R64). -/
def AsmOperand.text : AsmOperand → String
  | .reg n => "w" ++ toString n
  | .imm n => "#" ++ toString n

/-- A line's text: mnemonic, suffix, and the operands separated by commas (R64). -/
def AsmLine.text (l : AsmLine) : String :=
  l.op.mnemonic ++ (if l.suffixR then ".R" else "") ++ " " ++ ", ".intercalate (l.args.map AsmOperand.text)

end Sys2Proof
end

