-- ==== Sys2Proof/Machine/Pseudo.lean ====
section
/-! DEFINITION. The pseudo-instructions and their expansions (spec/30_encoding.md R65), and the run of a short command
sequence with nothing between its commands. -/

namespace Sys2Proof.Machine

/-- R65's pseudo-instructions, operands in its order. -/
inductive Pseudo where
  | mov (wd wa : Reg)
  | zero (wd : Reg)
  | add256 (wl wh wal wah wbl wbh : Reg)
  | sub256 (wl wh wal wah wbl wbh : Reg)
  | norm (wd wn wa : Reg)
  deriving DecidableEq, Repr

/-- The expansion column of R65. -/
def Pseudo.expand : Pseudo → List Instr
  | .mov wd wa => [.shli wd wa 0]
  | .zero wd => [.shli wd wd 128]
  | .add256 wl wh wal wah wbl wbh => [.add wl wal wbl, .adc wh wah wbh]
  | .sub256 wl wh wal wah wbl wbh => [.sub wl wal wbl, .sbb wh wah wbh]
  | .norm wd wn wa => [.clz wn wa, .shl wd wa wn]

/-- R65's alias constraints: the first command must not overwrite an input of the second. -/
def Pseudo.aliasOk : Pseudo → Bool
  | .mov _ _ => true
  | .zero _ => true
  | .add256 wl _ _ wah _ wbh => wl != wah && wl != wbh
  | .sub256 wl _ _ wah _ wbh => wl != wah && wl != wbh
  | .norm _ wn wa => wn != wa

/-- Issue and complete commands one after another, with no host access between them (R113); a fault ends the
sequence, because later CMD writes are ignored (R95). -/
def runCommands : List Instr → State → Host.Outcome State Fault Refusal
  | [], s => .next s
  | i :: rest, s =>
    match exec i s with
    | .next t => if t.faulted then .next t else runCommands rest t.complete
    | .fault r => .fault r
    | .refused r => .refused r

end Sys2Proof.Machine
end

