-- ==== Sys2Proof/Machine/Reference.lean ====
section
/-! DEFINITION. The source's reference algorithms, limb by limb and bit by bit (R66, R72, R79, R80, R83). No
instruction's meaning uses them: any structure with the same results conforms, and that these have the same results
is stated as obligations. -/

namespace Sys2Proof.Machine

/-- The limb-level adder (R66): the carry goes from limb to limb. -/
def limbAdd (a b : Wide) (cin : Bool) : Wide × Bool :=
  let loSum := (loLimb a).toNat + (loLimb b).toNat + cin.toNat
  let c1 := (loSum.testBit 64).toNat
  let hiSum := (hiLimb a).toNat + (hiLimb b).toNat + c1
  (ofLimbs (BitVec.ofNat 64 loSum) (BitVec.ofNat 64 hiSum), hiSum.testBit 64)

/-- The limb-level left shift by 0 ≤ n < 128 (R72). -/
def limbShiftLeft (a : Wide) (n : Nat) : Wide :=
  if n = 0 then a
  else if n < 64 then ofLimbs (loLimb a <<< n) ((hiLimb a <<< n) ||| (loLimb a >>> (64 - n)))
  else if n = 64 then ofLimbs 0 (loLimb a)
  else ofLimbs 0 (loLimb a <<< (n - 64))

/-- The limb-level right shift by 0 ≤ n < 128, the mirror of the left shift (R72). -/
def limbShiftRight (a : Wide) (n : Nat) : Wide :=
  if n = 0 then a
  else if n < 64 then ofLimbs ((loLimb a >>> n) ||| (hiLimb a <<< (64 - n))) (hiLimb a >>> n)
  else if n = 64 then ofLimbs (hiLimb a) 0
  else ofLimbs (hiLimb a >>> (n - 64)) 0

/-- The schoolbook product of four partial products (R79). -/
def schoolbookProduct (a b : Wide) : Nat :=
  let p00 := (loLimb a).toNat * (loLimb b).toNat
  let p01 := (loLimb a).toNat * (hiLimb b).toNat
  let p10 := (hiLimb a).toNat * (loLimb b).toNat
  let p11 := (hiLimb a).toNat * (hiLimb b).toNat
  p11 * 2 ^ 128 + (p01 + p10) * 2 ^ 64 + p00

/-- The two partial products of MUL64 and their truncated sum (R80). -/
def schoolbookNarrow (a : Wide) (b : Limb) : Wide :=
  trunc128 ((loLimb a).toNat * b.toNat + (hiLimb a).toNat * b.toNat * 2 ^ 64)

/-- The restoring division loop (R83) on the low `k` bits of the dividend `n`, from partial remainder `r` and
quotient `q`: each iteration doubles the remainder, brings in one dividend bit and makes a trial subtraction. -/
def restoringLoop (n d : Nat) : Nat → Nat → Nat → Nat × Nat
  | 0, r, q => (q, r)
  | i + 1, r, q =>
    let r' := 2 * r + (n / 2 ^ i) % 2
    if d ≤ r' then restoringLoop n d i (r' - d) (q + 2 ^ i) else restoringLoop n d i r' q

/-- The restoring division of a `k`-bit dividend (R83): quotient and remainder. -/
def restoringDivide (k n d : Nat) : Nat × Nat := restoringLoop n d k 0 0

/-- The shortened loop for DIVF (R83): it starts from `R = hi` and runs the 128 iterations over `lo`. -/
def restoringDivideFrom (hi lo d : Nat) : Nat × Nat := restoringLoop lo d 128 hi 0

/-- The normalising division (R83): dividend and divisor are shifted by `clz(d)`, and the remainder is shifted back. -/
def normalizedDivide (n : Nat) (d : Wide) : Nat × Nat :=
  let k := clz d
  let q := restoringDivide 384 (n * 2 ^ k) (d.toNat * 2 ^ k)
  (q.1, q.2 / 2 ^ k)

end Sys2Proof.Machine
end

