-- ==== Sys2Proof/Machine/Relation.lean ====
section
/-! DEFINITION. The unit and its outside as a transition relation: every order of moves the spec admits
(spec/93_implementation_defined.md V11: "The model is a relation, not a function, at this point"). -/

namespace Sys2Proof.Machine

/-- The unit completes the command in flight (R111). -/
def CompletionMove (s s' : State) : Prop := s.inFlight.isSome = true ∧ s' = s.complete

/-- The outside's next input is performed; it must not be held (R45, R112). -/
def InputMove (s s' : State) : Prop :=
  ∃ inp rest, s.pending = inp :: rest ∧ s.holds inp = false ∧ (s.dropPending rest).perform inp = .next s'

/-- Nothing is pending and nothing is in flight: the unit does nothing (R106). -/
def IdleMove (s s' : State) : Prop := s.pending = [] ∧ s.inFlight = none ∧ s' = s

/-- One move of either agent. -/
def Move (s s' : State) : Prop := CompletionMove s s' ∨ InputMove s s' ∨ IdleMove s s'

/-- Two states that differ at most in the model's own choice counter. -/
def SameButTurn (s s' : State) : Prop := { s with turn := s'.turn } = s'

end Sys2Proof.Machine
end

