-- ==== Sys2Proof/Safety.lean ====
section
/-! DEFINITION. What holds of every state a run reaches (the invariant), and how a host program ends
(spec/70_reset_and_hazards.md R116). -/

namespace Sys2Proof.Machine

/-! ### The invariant -/

/-- Which opcodes write FLAGS.C: ADD, ADC, SUB and SBB (R21). -/
def writesCarry : Opcode → Bool
  | .add => true
  | .adc => true
  | .sub => true
  | .sbb => true
  | .cmp => false
  | .shl => false
  | .shr => false
  | .shli => false
  | .shri => false
  | .clz => false
  | .mulf => false
  | .mul64 => false
  | .div64 => false
  | .div128 => false
  | .divf => false
  | .divw64 => false

/-- How many registers a command of the opcode writes: none for CMP, two where R60 says so, else one (R53). -/
def registersWritten : Opcode → Nat
  | .add => 1
  | .adc => 1
  | .sub => 1
  | .sbb => 1
  | .cmp => 0
  | .shl => 1
  | .shr => 1
  | .shli => 1
  | .shri => 1
  | .clz => 1
  | .mulf => 2
  | .mul64 => 1
  | .div64 => 2
  | .div128 => 2
  | .divf => 2
  | .divw64 => 2

/-- A record an issue can leave: it writes FLAGS.C exactly for the adder's commands (R21) and FLAGS.CMP exactly for
CMP, never 0b10 (R22); it writes as many registers as its command has destinations, no one of them twice (R60). -/
def InFlight.Legal (r : InFlight) : Prop :=
  r.carryWrite.isSome = writesCarry r.op ∧
    r.cmpWrite.isSome = (r.op == .cmp) ∧
    r.cmpWrite ≠ some 0b10 ∧
    r.regWrites.length = registersWritten r.op ∧
    (r.regWrites.map Prod.fst).Nodup

/-- The invariant of the unit: IF is none exactly when BUSY = 0 (R30); BUSY and FAULT are never both 1 (R24); FCODE
is 0 while FAULT = 0 (R23) and one of 1, 2, 3 while FAULT = 1 (R88); a command in flight is legal. -/
def State.Inv (s : State) : Prop :=
  (s.inFlight = none ↔ s.status.busy = false) ∧
    (s.status.fault = true → s.status.busy = false) ∧
    (s.status.fault = false → s.status.fcode = 0) ∧
    (s.status.fault = true → ∃ k : Fault, s.status.fcode = k.code) ∧
    ∀ r, s.inFlight = some r → r.Legal

/-! ### What a command does -/

/-- The command runs: its issue changes nothing but IF and BUSY (R110), and the completion of the record it left
changes W to `w'` and FLAGS to `f'`, clears IF and BUSY, sets DONE, and changes nothing else (R111). -/
def Completes (i : Instr) (s : State) (w' : Vector Wide 8) (f' : Flags) : Prop :=
  ∃ r : InFlight,
    exec i s = .next { s with inFlight := some r, status := { s.status with busy := true } } ∧
      State.complete { s with inFlight := some r, status := { s.status with busy := true } } =
        { s with
          w := w'
          flags := f'
          inFlight := none
          status := { s.status with busy := false, done := true } }

/-- The command faults at its issue: FAULT is set, FCODE takes the code, and nothing else changes (R93, R94). -/
def TakesFault (i : Instr) (s : State) (code : BitVec 4) : Prop :=
  exec i s = .next { s with status := { s.status with fault := true, fcode := code } }

/-! ### How a run ends -/

/-- A host program's outcome at a normal end: the final W0..W7, FLAGS and STATUS.DONE, and the values its reads
returned, in their order (R116). Writes and accesses that got a bus error leave nothing in it. -/
structure NormalOutcome where
  w : Vector Wide 8
  flags : Flags
  done : Bool
  reads : List Limb
  deriving DecidableEq, Repr

/-- How a run of some steps stands (R116). -/
inductive RunOutcome where
  /-- It reached STATUS.FAULT = 1. -/
  | faulted (code : BitVec 4)
  /-- The last access is performed, BUSY = 0 and FAULT = 0. -/
  | ended (o : NormalOutcome)
  /-- Neither yet. -/
  | running
  /-- A step answered something else than a next state; no step of this model does. -/
  | stopped
  deriving DecidableEq, Repr

/-- The three conditions of a normal end (R116). DESIGN CHOICE, log entry 16: the run goes on to its last input, a RESET
after the last access included. -/
def State.atNormalEnd (s : State) : Bool := s.pending.isEmpty && !s.status.busy && !s.status.fault

/-- The outcome read from a state at a normal end (R116). -/
def State.normalOutcome (s : State) : NormalOutcome :=
  { w := s.w, flags := s.flags, done := s.status.done, reads := s.readValues }

/-- R116, said of a state and an outcome: no input is left, BUSY = 0 and FAULT = 0, and the outcome is W, FLAGS and DONE
of the state and the values the reads returned, which are the answers without those to writes and the bus errors. -/
def State.EndsNormallyWith (s : State) (o : NormalOutcome) : Prop :=
  s.pending = [] ∧ s.status.busy = false ∧ s.status.fault = false ∧
    o.w = s.w ∧ o.flags = s.flags ∧ o.done = s.status.done ∧
    o.reads.reverse.map Response.data = s.responses.filter (fun a => a != .written && a != .busError)

/-- The outcome of a run of at most `k` steps: a state with FAULT = 1 makes it a fault outcome, whatever the host
does afterwards, a RESET included (R95, R116). -/
def runOutcome : Nat → State → RunOutcome
  | 0, s =>
    if s.status.fault then .faulted s.status.fcode
    else if s.atNormalEnd then .ended s.normalOutcome
    else .running
  | k + 1, s =>
    if s.status.fault then .faulted s.status.fcode
    else if s.atNormalEnd then .ended s.normalOutcome
    else
      match step s with
      | .next s' => runOutcome k s'
      | .fault _ => .stopped
      | .refused _ => .stopped

end Sys2Proof.Machine
end

