-- ==== Sys2Proof/Certificates/Slice0/Obligations.lean ====
section
/-! DEFINITION. The statements for the provers: what the spec's numbered rules say of the machine. Nothing here is
proved. A statement about a command holds for every register operand, aliased ones included (R31). -/

open Sys2Proof Sys2Proof.Machine

/-! ### Encoding (spec/30_encoding.md) -/

/-- R59, R60, R63: the word of a well-formed command, written to CMD, decodes to that command with every operand. -/
def Obligations.DecodeOfEncodeIsTheCommand : Prop :=
  ∀ i : Instr, i.wf = true → decode (encodeWrite i) = .instr i

/-- R63: a CMD value that decodes to a command is that command's own word, so no two values share a command. -/
def Obligations.DecodedValueIsTheCommandsWord : Prop :=
  ∀ (v : Limb) (i : Instr), decode v = .instr i → i.wf = true ∧ encodeWrite i = v

/-- R59: a word selects a mnemonic exactly when it matches the row under the mask, bits 63:32 are 0, and RD differs
from RE where there are two destinations; and the mask is OP, RSV and the fields the row marks 0. -/
def Obligations.WordSelectsMnemonicByMaskAndMatch : Prop :=
  (∀ (v : Limb) (o : Opcode),
    (∃ i, decode v = .instr i ∧ i.opcode = o) ↔
      (v.extractLsb' 0 32 &&& o.mask = o.pattern ∧ v.extractLsb' 32 32 = 0#32 ∧
        (o ∈ [Opcode.mulf, .div64, .div128, .divf, .divw64] → v.extractLsb' 23 3 ≠ v.extractLsb' 20 3))) ∧
  ∀ o : Opcode,
    o.mask = 0xFC000000#32 ||| 0x300#32
      ||| (if o.uses.rd then 0 else 0x03800000#32) ||| (if o.uses.re then 0 else 0x00700000#32)
      ||| (if o.uses.ra then 0 else 0x000E0000#32) ||| (if o.uses.rb then 0 else 0x0001C000#32)
      ||| (if o.uses.rc then 0 else 0x00003800#32) ||| (if o.uses.rnd then 0 else 0x00000400#32)
      ||| (if o.uses.imm then 0 else 0x000000FF#32)

/-- R28, R50, R61, R93, R110: the four conditions that make a CMD value ILLEGAL, and what an accepted ILLEGAL value
does: the read-back takes the word, FAULT is set with code 3, and no register, no flag and nothing else changes. For a
value with nonzero upper bits, that its low 32 bits are read back is the model's reading (log entry 9). -/
def Obligations.IllegalWordsAreExactlyTheFourConditions : Prop :=
  ∀ (s : State) (v : Limb), s.accepts = true →
    ((∃ why, decode v = .illegal why) ↔
      (v.extractLsb' 32 32 ≠ 0#32 ∨ Opcode.ofBits (v.extractLsb' 26 6) = none ∨
        (∃ o, Opcode.ofBits (v.extractLsb' 26 6) = some o ∧
          ((o.uses.rd = false ∧ v.extractLsb' 23 3 ≠ 0#3) ∨ (o.uses.re = false ∧ v.extractLsb' 20 3 ≠ 0#3) ∨
            (o.uses.ra = false ∧ v.extractLsb' 17 3 ≠ 0#3) ∨ (o.uses.rb = false ∧ v.extractLsb' 14 3 ≠ 0#3) ∨
            (o.uses.rc = false ∧ v.extractLsb' 11 3 ≠ 0#3) ∨ (o.uses.rnd = false ∧ v.getLsbD 10 = true) ∨
            v.extractLsb' 8 2 ≠ 0#2 ∨ (o.uses.imm = false ∧ v.extractLsb' 0 8 ≠ 0#8))) ∨
        (∃ o ∈ [Opcode.mulf, .div64, .div128, .divf, .divw64],
          Opcode.ofBits (v.extractLsb' 26 6) = some o ∧ v.extractLsb' 23 3 = v.extractLsb' 20 3))) ∧
    ((∃ why, decode v = .illegal why) →
      s.hostWrite 0x80 v =
        .next { s with
          cmd := v.extractLsb' 0 32
          status := { s.status with fault := true, fcode := 3 } })

/-- R58: the OP value of each command, and the OP values that are reserved. -/
def Obligations.OpcodeValuesAndReservedValues : Prop :=
  ([Opcode.add, .adc, .sub, .sbb, .cmp, .shl, .shr, .shli, .shri, .clz, .mulf, .mul64, .div64, .div128, .divf,
      .divw64].map Opcode.bits =
    [0x01, 0x02, 0x03, 0x04, 0x05, 0x08, 0x09, 0x0A, 0x0B, 0x0C, 0x10, 0x11, 0x18, 0x19, 0x1A, 0x1B]) ∧
  (∀ o : Opcode, Opcode.ofBits o.bits = some o) ∧
  ∀ op : BitVec 6, Opcode.ofBits op = none ↔
    (op = 0 ∨ op = 6 ∨ op = 7 ∨ (0x0D ≤ op ∧ op ≤ 0x0F) ∨ (0x12 ≤ op ∧ op ≤ 0x17) ∨ 0x1C ≤ op)

/-- Words written out in the spec (R67, R71, R75, R77, R79, R86, R87 and the decoder vectors of
spec/95_test_vectors.md 2.7) decode to the commands it says. -/
def Obligations.SpecWordsDecodeAsWritten : Prop :=
  decode 0x04028000 = .instr (.add 0 1 2) ∧ decode 0x14028000 = .instr (.cmp 1 2) ∧
  decode 0x2802007F = .instr (.shli 0 1 127) ∧ decode 0x30020000 = .instr (.clz 0 1) ∧
  decode 0x4014C000 = .instr (.mulf 0 1 2 3) ∧ decode 0x6A528000 = .instr (.divf 4 5 0 1 2) ∧
  decode 0x6E528400 = .instr (.divw64 4 5 0 1 2 true) ∧ decode 0x0000000104028000 = .illegal .upperBits ∧
  decode 0x18000000 = .illegal .reservedOp ∧ decode 0x2802C040 = .illegal .nonzeroField ∧
  decode 0x4004C000 = .illegal .sameDestination

/-- R64: the assembler gives each well-formed command its word, and never emits a word that R61 makes ILLEGAL. -/
def Obligations.AssemblerEmitsOnlyLegalWords : Prop :=
  (∀ i : Instr, i.wf = true → i.asmLine.assemble = some (encode i)) ∧
  ∀ (l : AsmLine) (cw : CmdWord), l.assemble = some cw → ∃ i, decode (cw.setWidth 64) = .instr i

/-! ### Addition, subtraction, comparison (spec/40_add_sub_cmp.md) -/

/-- R67: ADD completes from every accepting state: W[RD] is the sum modulo 2^128 and C its carry-out; CMP, every
other register and the rest of the state keep their values, but for DONE (R111). -/
def Obligations.AddCompletesWithSumAndCarry : Prop :=
  ∀ (s : State) (rd ra rb : Reg), s.accepts = true →
    encode (.add rd ra rb) &&& 0xFC703FFF = 0x04000000 ∧
    Completes (.add rd ra rb) s
      (s.w.set rd (trunc128 ((s.readW ra).toNat + (s.readW rb).toNat)))
      { s.flags with c := decide (2 ^ 128 ≤ (s.readW ra).toNat + (s.readW rb).toNat) }

/-- R68: ADC adds FLAGS.C as well. -/
def Obligations.AdcCompletesWithSumAndCarry : Prop :=
  ∀ (s : State) (rd ra rb : Reg), s.accepts = true →
    encode (.adc rd ra rb) &&& 0xFC703FFF = 0x08000000 ∧
    Completes (.adc rd ra rb) s
      (s.w.set rd (trunc128 ((s.readW ra).toNat + (s.readW rb).toNat + (if s.flags.c then 1 else 0))))
      { s.flags with
        c := decide (2 ^ 128 ≤ (s.readW ra).toNat + (s.readW rb).toNat + (if s.flags.c then 1 else 0)) }

/-- R69: SUB writes the difference modulo 2^128 and the borrow-out. -/
def Obligations.SubCompletesWithDifferenceAndBorrow : Prop :=
  ∀ (s : State) (rd ra rb : Reg), s.accepts = true →
    encode (.sub rd ra rb) &&& 0xFC703FFF = 0x0C000000 ∧
    Completes (.sub rd ra rb) s
      (s.w.set rd (BitVec.ofInt 128 (((s.readW ra).toNat : Int) - (s.readW rb).toNat + 2 ^ 128)))
      { s.flags with c := decide ((s.readW ra).toNat < (s.readW rb).toNat) }

/-- R70: SBB subtracts FLAGS.C as well; the comparison `a < b + bin` is exact. -/
def Obligations.SbbCompletesWithDifferenceAndBorrow : Prop :=
  ∀ (s : State) (rd ra rb : Reg), s.accepts = true →
    encode (.sbb rd ra rb) &&& 0xFC703FFF = 0x10000000 ∧
    Completes (.sbb rd ra rb) s
      (s.w.set rd (BitVec.ofInt 128
        (((s.readW ra).toNat : Int) - (s.readW rb).toNat - (if s.flags.c then 1 else 0) + 2 ^ 128)))
      { s.flags with c := decide ((s.readW ra).toNat < (s.readW rb).toNat + (if s.flags.c then 1 else 0)) }

/-- R71: CMP writes no register; FLAGS.CMP is the unsigned order of the two 128-bit values. -/
def Obligations.CmpCompletesWithUnsignedOrder : Prop :=
  ∀ (s : State) (ra rb : Reg), s.accepts = true →
    encode (.cmp ra rb) &&& 0xFFF03FFF = 0x14000000 ∧
    Completes (.cmp ra rb) s s.w
      { s.flags with
        cmp :=
          if (s.readW rb).toNat < (s.readW ra).toNat then 0b01
          else if (s.readW ra).toNat < (s.readW rb).toNat then 0b11
          else 0b00 }

/-- R66: the limb-to-limb carry chain gives the same sum and carry-out as the addition of whole values. -/
def Obligations.LimbCarryChainEqualsWholeAddition : Prop :=
  ∀ (a b : Wide) (cin : Bool), limbAdd a b cin = addWithCarry a b cin

/-! ### Shifts and CLZ (spec/41_shift_clz.md) -/

/-- R73, R74: SHL and SHR by the whole of W[RB]; no flag is written. -/
def Obligations.RegisterShiftsComplete : Prop :=
  ∀ (s : State) (rd ra rb : Reg), s.accepts = true →
    encode (.shl rd ra rb) &&& 0xFC703FFF = 0x20000000 ∧
    encode (.shr rd ra rb) &&& 0xFC703FFF = 0x24000000 ∧
    Completes (.shl rd ra rb) s
      (s.w.set rd
        (if 128 ≤ (s.readW rb).toNat then 0 else trunc128 ((s.readW ra).toNat * 2 ^ (s.readW rb).toNat))) s.flags ∧
    Completes (.shr rd ra rb) s
      (s.w.set rd
        (if 128 ≤ (s.readW rb).toNat then 0 else trunc128 ((s.readW ra).toNat / 2 ^ (s.readW rb).toNat))) s.flags

/-- R75, R76: SHLI and SHRI by IMM8, zero-extended; no flag is written. -/
def Obligations.ImmediateShiftsComplete : Prop :=
  ∀ (s : State) (rd ra : Reg) (imm : BitVec 8), s.accepts = true →
    encode (.shli rd ra imm) &&& 0xFC71FF00 = 0x28000000 ∧
    encode (.shri rd ra imm) &&& 0xFC71FF00 = 0x2C000000 ∧
    Completes (.shli rd ra imm) s
      (s.w.set rd (if 128 ≤ imm.toNat then 0 else trunc128 ((s.readW ra).toNat * 2 ^ imm.toNat))) s.flags ∧
    Completes (.shri rd ra imm) s
      (s.w.set rd (if 128 ≤ imm.toNat then 0 else trunc128 ((s.readW ra).toNat / 2 ^ imm.toNat))) s.flags

/-- R72: every shift is logical, bit by bit: zeros enter from the vacated end and no bit wraps; an amount of 128 or
more gives 0. -/
def Obligations.ShiftsMoveBitsAndEnterZeros : Prop :=
  ∀ (a : Wide) (n j : Nat), j < 128 →
    (shiftLeft a n).getLsbD j = (decide (n ≤ j) && a.getLsbD (j - n)) ∧
    (shiftRight a n).getLsbD j = a.getLsbD (j + n)

/-- R72: the limb-level shifts give the same result for every amount below 128. -/
def Obligations.LimbShiftsEqualWholeShifts : Prop :=
  ∀ (a : Wide) (n : Nat), n < 128 → limbShiftLeft a n = shiftLeft a n ∧ limbShiftRight a n = shiftRight a n

/-- R77: CLZ writes 128 minus the bit length of the operand, 128 for 0; no flag is written. -/
def Obligations.ClzCompletesWithLeadingZeroCount : Prop :=
  ∀ (s : State) (rd ra : Reg), s.accepts = true →
    encode (.clz rd ra) &&& 0xFC71FFFF = 0x30000000 ∧
    Completes (.clz rd ra) s (s.w.set rd (trunc128 (128 - Nat.size (s.readW ra).toNat))) s.flags

/-! ### Multiplication (spec/42_multiply.md) -/

/-- R79: MULF writes the exact 256-bit product, low half to RD and high half to RE; no flag is written. -/
def Obligations.MulfCompletesWithFullProduct : Prop :=
  ∀ (s : State) (rd re ra rb : Reg), s.accepts = true → rd ≠ re →
    encode (.mulf rd re ra rb) &&& 0xFC003FFF = 0x40000000 ∧
    ∃ lo hi : Wide,
      hi.toNat * 2 ^ 128 + lo.toNat = (s.readW ra).toNat * (s.readW rb).toNat ∧
      Completes (.mulf rd re ra rb) s ((s.w.set rd lo).set re hi) s.flags

/-- R80: MUL64 writes the product with W[RB].lo modulo 2^128; no flag is written. -/
def Obligations.Mul64CompletesWithTruncatedProduct : Prop :=
  ∀ (s : State) (rd ra rb : Reg), s.accepts = true →
    encode (.mul64 rd ra rb) &&& 0xFC703FFF = 0x44000000 ∧
    Completes (.mul64 rd ra rb) s
      (s.w.set rd (trunc128 ((s.readW ra).toNat * ((s.readW rb).toNat % 2 ^ 64)))) s.flags

/-- R79, R80: the sums of 64×64 partial products are the products. -/
def Obligations.PartialProductsSumToTheProduct : Prop :=
  (∀ a b : Wide, schoolbookProduct a b = a.toNat * b.toNat ∧ a.toNat * b.toNat < 2 ^ 256) ∧
  ∀ (a : Wide) (b : Limb), schoolbookNarrow a b = trunc128 (a.toNat * b.toNat)

/-! ### Division (spec/43_divide.md) -/

/-- R84: DIV64 divides by W[RB].lo; a zero W[RB].lo raises DIVIDE_BY_ZERO and writes nothing. -/
def Obligations.Div64DividesOrFaults : Prop :=
  ∀ (s : State) (rd re ra rb : Reg), s.accepts = true → rd ≠ re →
    encode (.div64 rd re ra rb) &&& 0xFC003FFF = 0x60000000 ∧
    ((s.readW rb).toNat % 2 ^ 64 = 0 → TakesFault (.div64 rd re ra rb) s 1) ∧
    ((s.readW rb).toNat % 2 ^ 64 ≠ 0 →
      Completes (.div64 rd re ra rb) s
        ((s.w.set rd (trunc128 ((s.readW ra).toNat / ((s.readW rb).toNat % 2 ^ 64)))).set re
          (trunc128 ((s.readW ra).toNat % ((s.readW rb).toNat % 2 ^ 64)))) s.flags)

/-- R85: DIV128 divides by W[RB]; a zero divisor raises DIVIDE_BY_ZERO and writes nothing. -/
def Obligations.Div128DividesOrFaults : Prop :=
  ∀ (s : State) (rd re ra rb : Reg), s.accepts = true → rd ≠ re →
    encode (.div128 rd re ra rb) &&& 0xFC003FFF = 0x64000000 ∧
    (s.readW rb = 0 → TakesFault (.div128 rd re ra rb) s 1) ∧
    (s.readW rb ≠ 0 →
      Completes (.div128 rd re ra rb) s
        ((s.w.set rd (trunc128 ((s.readW ra).toNat / (s.readW rb).toNat))).set re
          (trunc128 ((s.readW ra).toNat % (s.readW rb).toNat))) s.flags)

/-- R86: DIVF divides W[RC]·2^128 + W[RA] by W[RB]; a zero divisor raises DIVIDE_BY_ZERO, and otherwise a high half
not below the divisor raises DIVIDE_OVERFLOW; a completed division has the exact quotient. -/
def Obligations.DivfDividesOrFaults : Prop :=
  ∀ (s : State) (rd re rc ra rb : Reg), s.accepts = true → rd ≠ re →
    encode (.divf rd re rc ra rb) &&& 0xFC0007FF = 0x68000000 ∧
    (s.readW rb = 0 → TakesFault (.divf rd re rc ra rb) s 1) ∧
    (s.readW rb ≠ 0 → (s.readW rb).toNat ≤ (s.readW rc).toNat → TakesFault (.divf rd re rc ra rb) s 2) ∧
    ((s.readW rc).toNat < (s.readW rb).toNat →
      ∃ q r : Wide,
        q.toNat * (s.readW rb).toNat + r.toNat = (s.readW rc).toNat * 2 ^ 128 + (s.readW ra).toNat ∧
        r.toNat < (s.readW rb).toNat ∧
        Completes (.divf rd re rc ra rb) s ((s.w.set rd q).set re r) s.flags)

/-- R82, R87: DIVW64 divides by W[RB].lo, keeps 128 quotient bits, rounds half up where RND is set, and writes the
unrounded remainder; a zero W[RB].lo raises DIVIDE_BY_ZERO. -/
def Obligations.Divw64DividesRoundsOrFaults : Prop :=
  ∀ (s : State) (rd re rc ra rb : Reg) (rnd : Bool), s.accepts = true → rd ≠ re →
    encode (.divw64 rd re rc ra rb rnd) &&& 0xFC0003FF = 0x6C000000 ∧
    ((s.readW rb).toNat % 2 ^ 64 = 0 → TakesFault (.divw64 rd re rc ra rb rnd) s 1) ∧
    ((s.readW rb).toNat % 2 ^ 64 ≠ 0 →
      let d := (s.readW rb).toNat % 2 ^ 64
      let n := (s.readW rc).toNat * 2 ^ 128 + (s.readW ra).toNat
      let q := trunc128 (n / d)
      Completes (.divw64 rd re rc ra rb rnd) s
        ((s.w.set rd (if rnd = true ∧ 2 * (n % d) ≥ d then q + 1 else q)).set re (trunc128 (n % d))) s.flags)

/-- R60, R92: a two-destination command with RD = RE is ILLEGAL before any operand is looked at: the issue of such a
command faults with code 3 whatever the operands are. That the meaning of such a command, which the decoder never
gives, is this fault is the model's (log entry 10). -/
def Obligations.EqualDestinationsFaultFirst : Prop :=
  ∀ (s : State) (rd rc ra rb : Reg) (rnd : Bool), s.accepts = true →
    TakesFault (.mulf rd rd ra rb) s 3 ∧ TakesFault (.div64 rd rd ra rb) s 3 ∧
    TakesFault (.div128 rd rd ra rb) s 3 ∧ TakesFault (.divf rd rd rc ra rb) s 3 ∧
    TakesFault (.divw64 rd rd rc ra rb rnd) s 3

/-- R88: DIVIDE_OVERFLOW comes only from DIVF, and the divide faults only from the divisions. -/
def Obligations.DivideFaultsComeOnlyFromDivisions : Prop :=
  ∀ (s : State) (i : Instr), s.accepts = true → i.wf = true →
    (TakesFault i s 2 → i.opcode = .divf) ∧
    (TakesFault i s 1 → i.opcode ∈ [Opcode.div64, .div128, .divf, .divw64]) ∧ ¬ TakesFault i s 3

/-- R83: the restoring division loop computes the quotient and remainder, for 256-bit and 128-bit dividends and, for
DIVF, from `R = hi` in 128 iterations; normalising both operands by clz(d) and shifting the remainder back gives
the same. -/
def Obligations.RestoringDivisionIsFloorDivision : Prop :=
  (∀ n d : Nat, 0 < d → n < 2 ^ 256 → restoringDivide 256 n d = (n / d, n % d)) ∧
  (∀ n d : Nat, 0 < d → n < 2 ^ 128 → restoringDivide 128 n d = (n / d, n % d)) ∧
  (∀ hi lo d : Nat, hi < d → lo < 2 ^ 128 →
    restoringDivideFrom hi lo d = ((hi * 2 ^ 128 + lo) / d, (hi * 2 ^ 128 + lo) % d)) ∧
  ∀ (n : Nat) (d : Wide), d ≠ 0 → n < 2 ^ 256 → normalizedDivide n d = (n / d.toNat, n % d.toNat)

/-! ### Issue, completion and flags (spec/10_state.md, spec/60_exceptions.md, spec/70_reset_and_hazards.md) -/

/-- R28, R48, R106, R110, R111: when the next input is an accepted CMD write whose value decodes to a command, the step
is that command's `exec` on the state with the write taken off, answered, and its word in the read-back; when nothing is
pending the step completes the command in flight, and an idle unit with nothing pending stays as it is. The pending
inputs and the answers are the model's fields (log entries 1 and 2). -/
def Obligations.StepRunsTheDecodedCommand : Prop :=
  (∀ (s : State) (v : Limb) (i : Instr) (rest : List Input),
    s.accepts = true → s.inFlight = none → s.pending = .access (.write 0x80 64 v) :: rest → decode v = .instr i →
      step s =
        exec i { s with
          pending := rest
          responses := .written :: s.responses
          cmd := v.extractLsb' 0 32 }) ∧
  (∀ (s : State) (r : InFlight), s.inFlight = some r → s.pending = [] → step s = .next s.complete) ∧
  ∀ s : State, s.inFlight = none → s.pending = [] → step s = .next s

/-- R91, R93, R94: every accepted command either leaves a legal record of its own opcode and BUSY = 1, or enters the
fault state; either way it changes no register and no flag at issue. -/
def Obligations.IssueLaunchesOrFaults : Prop :=
  ∀ (s : State) (i : Instr), s.accepts = true →
    (∃ r : InFlight, r.Legal ∧ r.op = i.opcode ∧
      exec i s = .next { s with inFlight := some r, status := { s.status with busy := true } }) ∨
    (∃ k : Fault, TakesFault i s k.code)

/-- R28: CMD reads back the last accepted command word, zero-extended; a word that faulted counts, and so does an
ILLEGAL one. For a value with nonzero upper bits, that its low 32 bits are read back is the model's reading (log entry
9). -/
def Obligations.CmdReadsBackAcceptedWord : Prop :=
  ∀ (s t : State) (v : Limb), s.accepts = true → s.hostWrite 0x80 v = .next t →
    t.hostRead 0x80 = (v.extractLsb' 0 32).setWidth 64

/-- R111: completion performs the record's register and flag writes, clears IF and BUSY and sets DONE, in one step;
every register and flag the record does not write keeps its value. -/
def Obligations.CompletionPerformsTheRecord : Prop :=
  ∀ (s : State) (r : InFlight), s.inFlight = some r → r.Legal →
    (∀ n v, (n, v) ∈ r.regWrites → s.complete.readW n = v) ∧
    (∀ n, n ∉ r.regWrites.map Prod.fst → s.complete.readW n = s.readW n) ∧
    (∀ c, r.carryWrite = some c → s.complete.flags.c = c) ∧
    (r.carryWrite = none → s.complete.flags.c = s.flags.c) ∧
    (∀ c, r.cmpWrite = some c → s.complete.flags.cmp = c) ∧
    (r.cmpWrite = none → s.complete.flags.cmp = s.flags.cmp) ∧
    s.complete =
      { s with
        w := s.complete.w
        flags := s.complete.flags
        inFlight := none
        status := { s.status with busy := false, done := true } }

/-- R21, R22: only ADD, ADC, SUB and SBB change FLAGS.C and only CMP changes FLAGS.CMP; CMP never writes 0b10. -/
def Obligations.OnlyAdderAndCmpWriteFlags : Prop :=
  ∀ (s t : State) (i : Instr), s.accepts = true → s.inFlight = none → exec i s = .next t →
    (t.complete.flags.c ≠ s.flags.c → i.opcode ∈ [Opcode.add, .adc, .sub, .sbb]) ∧
    (t.complete.flags.cmp ≠ s.flags.cmp → i.opcode = .cmp ∧ t.complete.flags.cmp ≠ 0b10)

/-- R112: while BUSY = 1, an admitted access to a W limb, CMD or FLAGS waits: the step is the completion, and the
access stays first among the pending inputs; accesses at other offsets are never held. The pending list is the model's
(log entry 1). -/
def Obligations.BusyHoldsExactlyWCmdAndFlags : Prop :=
  (∀ (s : State) (a : HostAccess), a.admitted = true →
    (s.holds (.access a) = true ↔
      s.status.busy = true ∧ (a.off.toNat ≤ 0x78 ∨ a.off.toNat = 0x80 ∨ a.off.toNat = 0x90))) ∧
  ∀ (s : State) (r : InFlight) (a : HostAccess) (rest : List Input),
    s.inFlight = some r → s.pending = .access a :: rest → s.holds (.access a) = true →
      step s = .next s.complete ∧ s.complete.pending = s.pending

/-- R25: with a command in flight and a W1C write of DONE next, both orders are moves; if the write comes second DONE
ends at 0, and if completion comes second DONE ends at 1. The pending list and the relation are the model's form of
the two agents (log entries 1 and 3). -/
def Obligations.CompletionAndDoneClearInEitherOrder : Prop :=
  ∀ (s : State) (r : InFlight) (v : Limb) (rest : List Input),
    s.inFlight = some r → v.getLsbD 1 = true → s.pending = .access (.write 0x88 64 v) :: rest →
      (∃ t u, Move s t ∧ t.inFlight = none ∧ Move t u ∧ u.pending = rest ∧ u.inFlight = none ∧
        u.status.done = false) ∧
      (∃ t u, Move s t ∧ t.pending = rest ∧ Move t u ∧ u.pending = rest ∧ u.inFlight = none ∧
        u.status.done = true)

/-- R45, V11: every step is a move of the relation, up to the model's own choice counter. The pending list inside the
moves is the model's (log entry 1), and so are the choice function and its counter (log entry 3). -/
def Obligations.StepIsAMove : Prop :=
  ∀ s s' : State, s.Inv → step s = .next s' → ∃ t, Move s t ∧ SameButTurn t s'

/-- R45, V11: every move is the step under some choice, up to the model's own choice counter. The pending list inside
the moves is the model's (log entry 1), and so are the choice function and its counter (log entry 3). -/
def Obligations.EveryMoveIsAStepOfSomeChoice : Prop :=
  ∀ s t : State, s.Inv → Move s t → ∃ (first : Nat → Bool) (s' : State), stepWith first s = .next s' ∧ SameButTurn t s'

/-- R23, R24, R30, R60, R88: every step answers a next state, and keeps the invariant. -/
def Obligations.StepKeepsTheInvariant : Prop :=
  ∀ s : State,
    (∃ s', step s = .next s') ∧ ∀ s', s.Inv → step s = .next s' → s'.Inv

/-- The state after reset has the invariant. -/
def Obligations.ResetHasTheInvariant : Prop := State.reset.Inv

/-- R111, R107: a command in flight is completed, unless a RESET abandons it first. Within as many steps as there are
pending inputs a state comes that still has the same record in flight, and the same W and FLAGS, and whose next step is
the completion of that record, or performs a RESET of the pending inputs. The bound and the pending list are the model's:
it has no time and counts its inputs (log entries 1, 3, 6 and 7). -/
def Obligations.CommandsInFlightEnd : Prop :=
  ∀ (s : State) (r : InFlight), s.Inv → s.inFlight = some r →
    ∃ k ≤ s.pending.length, ∃ t t',
      core.run k s = .next t ∧ t.inFlight = some r ∧ t.w = s.w ∧ t.flags = s.flags ∧ t.pending <:+ s.pending ∧
        step t = .next t' ∧
        (SameButTurn t.complete t' ∨
          ∃ rest, t.pending = .reset :: rest ∧ SameButTurn (t.dropPending rest).applyReset t')

/-- W0..W7 change only by the completion of a command, by a host write to a limb outside the fault state, or by RESET.
The pending list is the model's (log entry 1). -/
def Obligations.RegistersChangeOnlyByCompletionHostOrReset : Prop :=
  ∀ s s' : State, step s = .next s' → s'.w ≠ s.w →
    (s.inFlight.isSome = true ∧ s'.w = s.complete.w) ∨
    (∃ rest, s.pending = .reset :: rest) ∨
    (∃ off v rest, s.pending = .access (.write off 64 v) :: rest ∧ off.toNat ≤ 0x78 ∧ s.status.fault = false)

/-- R25: DONE becomes 1 only by completion. The pending list is the model's (log entry 1). -/
def Obligations.DoneIsSetOnlyByCompletion : Prop :=
  ∀ s s' : State, step s = .next s' → s.status.done = false → s'.status.done = true →
    s.inFlight.isSome = true ∧ s'.inFlight = none ∧ s'.status.busy = false ∧ s'.pending = s.pending

/-- R91, R93, R89: the fault state is entered only by an accepted CMD write; the read-back is then that write's word,
BUSY is 0, and W, FLAGS, DONE and CTRL are as they were. The pending list is the model's (log entry 1), and so is the
reading that the low 32 bits of a value with nonzero upper bits are read back (log entry 9). -/
def Obligations.FaultIsEnteredOnlyAtIssue : Prop :=
  ∀ s s' : State, s.Inv → step s = .next s' → s.status.fault = false → s'.status.fault = true →
    ∃ v rest, s.pending = .access (.write 0x80 64 v) :: rest ∧ s'.cmd = v.extractLsb' 0 32 ∧
      s'.status.busy = false ∧ s'.inFlight = none ∧ s'.w = s.w ∧ s'.flags = s.flags ∧
      s'.status.done = s.status.done ∧ s'.ctrl = s.ctrl

/-- R26, R95, R96: in the fault state every step but a RESET keeps FAULT, FCODE, W, FLAGS and the read-back, and
issues nothing. The pending list is the model's (log entry 1). -/
def Obligations.FaultStateLastsUntilReset : Prop :=
  ∀ s s' : State, s.Inv → s.status.fault = true → step s = .next s' → (∀ rest, s.pending ≠ .reset :: rest) →
    s'.status.fault = true ∧ s'.status.fcode = s.status.fcode ∧ s'.w = s.w ∧ s'.flags = s.flags ∧
      s'.cmd = s.cmd ∧ s'.inFlight = none ∧ s'.status.busy = false

/-- R38: in the fault state a write to any W limb, to CMD or to FLAGS changes nothing, a write to CTRL and the W1C
write to STATUS work as usual, every read returns what the same registers return outside it, and no access is held. -/
def Obligations.FaultStateAccesses : Prop :=
  ∀ s : State, s.Inv → s.status.fault = true →
    (∀ (off : Offset) (v : Limb), off.toNat < 0x80 ∨ off = 0x80 ∨ off = 0x90 → s.hostWrite off v = .next s) ∧
    (∀ v : Limb, s.hostWrite 0x98 v = .next { s with ctrl := ⟨v.getLsbD 0, v.getLsbD 1⟩ }) ∧
    (∀ v : Limb, s.hostWrite 0x88 v =
      .next { s with status := { s.status with done := s.status.done && !v.getLsbD 1 } }) ∧
    (∀ off : Offset, off.toNat % 8 = 0 → off.toNat ≠ 0x88 →
      { s with status := { s.status with fault := false, fcode := 0 } }.hostRead off = s.hostRead off) ∧
    ∀ a : HostAccess, s.holds (.access a) = false

/-! ### The window (spec/20_memory.md, spec/10_state.md) -/

/-- R36, R37: what stands at each admitted offset. -/
def Obligations.WindowMap : Prop :=
  (∀ n : Reg, windowReg (BitVec.ofNat 8 (0x10 * n.val)) = .wLo n ∧
    windowReg (BitVec.ofNat 8 (0x10 * n.val + 8)) = .wHi n) ∧
  windowReg 0x80 = .cmd ∧ windowReg 0x88 = .status ∧ windowReg 0x90 = .flags ∧ windowReg 0x98 = .ctrl ∧
  windowReg 0xA0 = .id ∧ ∀ off : Offset, 0xA8 ≤ off.toNat → windowReg off = .reserved

/-- R16, R17, R41: no register is hardwired. Outside the fault state a write of one limb of any register, W0 included,
gives that limb the value and leaves the other limb; the two limb writes give the register the value hi·2^64 + lo, and
reads return the limbs. Every other register and every other part of the state keep their values. -/
def Obligations.RegisterWritesAreReadBack : Prop :=
  ∀ (s : State) (n : Reg) (lo hi : Limb), s.status.fault = false →
    (∃ t, s.hostWrite (BitVec.ofNat 8 (0x10 * n.val)) lo = .next t ∧
      (t.readW n).extractLsb' 0 64 = lo ∧ (t.readW n).extractLsb' 64 64 = (s.readW n).extractLsb' 64 64 ∧
      (∀ m, m ≠ n → t.readW m = s.readW m) ∧ { s with w := t.w } = t) ∧
    (∃ t, s.hostWrite (BitVec.ofNat 8 (0x10 * n.val + 8)) hi = .next t ∧
      (t.readW n).extractLsb' 64 64 = hi ∧ (t.readW n).extractLsb' 0 64 = (s.readW n).extractLsb' 0 64 ∧
      (∀ m, m ≠ n → t.readW m = s.readW m) ∧ { s with w := t.w } = t) ∧
    ∃ t u, s.hostWrite (BitVec.ofNat 8 (0x10 * n.val)) lo = .next t ∧
      t.hostWrite (BitVec.ofNat 8 (0x10 * n.val + 8)) hi = .next u ∧
      (u.readW n).toNat = hi.toNat * 2 ^ 64 + lo.toNat ∧
      u.hostRead (BitVec.ofNat 8 (0x10 * n.val)) = lo ∧
      u.hostRead (BitVec.ofNat 8 (0x10 * n.val + 8)) = hi ∧
      (∀ m, m ≠ n → u.readW m = s.readW m) ∧ { s with w := u.w } = u

/-- R20, R22, R27: outside the fault state a write to FLAGS takes C and CMP (0b10 too) and ignores the reserved bits,
which read 0; a write to CTRL takes its two bits in every state, the fault state too, and its reserved bits read 0.
Neither write changes anything else. -/
def Obligations.FlagsAndCtrlWritesAreReadBack : Prop :=
  ∀ (s : State) (v : Limb),
    (s.status.fault = false →
      ∃ t, s.hostWrite 0x90 v = .next t ∧ t.hostRead 0x90 = v &&& 7 ∧
        t = { s with flags := ⟨v.getLsbD 0, v.extractLsb' 1 2⟩ }) ∧
    ∃ t, s.hostWrite 0x98 v = .next t ∧ t.hostRead 0x98 = v &&& 3 ∧
      t = { s with ctrl := ⟨v.getLsbD 0, v.getLsbD 1⟩ }

/-- R23, R25, R26: the layout of STATUS; a write clears DONE where bit 1 is 1 and changes nothing else. -/
def Obligations.StatusLayoutAndWrite : Prop :=
  ∀ (s : State) (v : Limb),
    (s.hostRead 0x88).toNat =
      s.status.busy.toNat + 2 * s.status.done.toNat + 4 * s.status.fault.toNat + 16 * s.status.fcode.toNat ∧
    s.hostWrite 0x88 v = .next { s with status := { s.status with done := s.status.done && !v.getLsbD 1 } }

/-- R29, R37: ID reads ID_VALUE and ignores writes; a reserved offset reads 0 and ignores writes; neither is ever
held. -/
def Obligations.IdAndReservedOffsets : Prop :=
  ∀ (s : State) (v : Limb),
    s.hostRead 0xA0 = 0x0000000000010128 ∧ s.hostWrite 0xA0 v = .next s ∧
    (∀ off : Offset, 0xA8 ≤ off.toNat → s.hostRead off = 0 ∧ s.hostWrite off v = .next s) ∧
    ∀ a : HostAccess, 0xA0 ≤ a.off.toNat → s.holds (.access a) = false

/-- R40: exactly the 64-bit accesses at multiples of 8 are admitted; any other gets a bus error: no data, no change of
the unit's state, no fault, and it is never held (the answers are the model's field, log entry 2; that it is not held is
log entry 11). -/
def Obligations.BusErrorChangesNothing : Prop :=
  ∀ (s : State) (a : HostAccess),
    (a.admitted = true ↔ a.width = 64 ∧ a.off.toNat % 8 = 0) ∧
    (a.width ≠ 64 ∨ a.off.toNat % 8 ≠ 0 →
      s.perform (.access a) = .next { s with responses := .busError :: s.responses } ∧
      s.holds (.access a) = false)

/-- R42: an admitted read answers the register's value and changes nothing of the unit; a second write of the same
value to a W limb, FLAGS or CTRL changes nothing more. The list of answers is the model's (log entry 2). -/
def Obligations.ReadsAreFreeOfEffectsAndWritesIdempotent : Prop :=
  (∀ (s : State) (off : Offset), off.toNat % 8 = 0 →
    s.perform (.access (.read off 64)) = .next { s with responses := .data (s.hostRead off) :: s.responses }) ∧
  ∀ (s t : State) (off : Offset) (v : Limb), off.toNat < 0x80 ∨ off = 0x90 ∨ off = 0x98 →
    s.hostWrite off v = .next t → t.hostWrite off v = .next t

/-- R39: byte lane k of the word at an offset is bits 8k+7..8k of the register there; and seen as bytes, W[n] is the
little-endian 128-bit number at offsets 0x10·n to 0x10·n+15. -/
def Obligations.RegistersAreLittleEndianInTheWindow : Prop :=
  (∀ (s : State) (off : Offset) (k : Nat), off.toNat % 8 = 0 → k < 8 →
    s.windowByte (off + BitVec.ofNat 8 k) = (s.hostRead off).extractLsb' (8 * k) 8) ∧
  ∀ (s : State) (n : Reg) (k : Nat), k < 16 →
    s.windowByte (BitVec.ofNat 8 (0x10 * n.val + k)) = (s.readW n).extractLsb' (8 * k) 8

/-- R35: UNIT_BASE is a multiple of 256, and an offset's system address leads back to the offset. -/
def Obligations.SystemAddressesOfTheWindow : Prop :=
  Config.unitBase % 256 = 0 ∧
  ∀ (off : Offset) (addr : Nat), offsetAt addr = some off ↔ addr = systemAddress off

/-! ### Interrupt, reset, end of a run -/

/-- R99: the interrupt level; it is 0 after reset, and in the fault state it cannot fall while FAULT_IE is 1 except by
RESET. The pending list is the model's (log entry 1). -/
def Obligations.IrqIsTheEnabledLevel : Prop :=
  (∀ s : State, s.irq = true ↔
    (s.status.done = true ∧ s.ctrl.doneIE = true) ∨ (s.status.fault = true ∧ s.ctrl.faultIE = true)) ∧
  State.reset.irq = false ∧
  ∀ s s' : State, s.Inv → s.status.fault = true → step s = .next s' → (∀ rest, s.pending ≠ .reset :: rest) →
    s'.ctrl.faultIE = true → s'.irq = true

/-- R33: a RESET performed in any state, the fault state and a state with a command in flight included, gives every
piece of the unit's state its reset value, and `State.reset` has the same values; ID is a constant. -/
def Obligations.ResetGivesEveryResetValue : Prop :=
  ∀ s : State, ∃ t, s.perform .reset = .next t ∧
    ∀ u ∈ [t, State.reset],
      (∀ n : Reg, u.readW n = 0) ∧ u.flags.c = false ∧ u.flags.cmp = 0b00 ∧ u.status.busy = false ∧
      u.status.done = false ∧ u.status.fault = false ∧ u.status.fcode = 0 ∧ u.ctrl.doneIE = false ∧
      u.ctrl.faultIE = false ∧ u.cmd = 0 ∧ u.inFlight = none ∧ u.irq = false ∧
      u.hostRead 0xA0 = 0x0000000000010128

/-- R95, R116: a run from an invariant state that reaches FAULT = 1 has a fault outcome, whatever the inputs after it
are. A run that ends normally ends in a state it reaches with no input left, BUSY = 0 and FAULT = 0, with that state's
outcome; and a run from an invariant state that reaches such a state, with FAULT = 0 all the way, ends normally with it.
The run and its outcome, and that a RESET after the last access belongs to the run, are the model's form of R116 (log
entries 1, 2, 10 and 16). -/
def Obligations.RunThatFaultsNeverEndsNormally : Prop :=
  (∀ (j k : Nat) (s t : State), s.Inv → j ≤ k → core.run j s = .next t → t.status.fault = true →
    ∃ code, runOutcome k s = .faulted code) ∧
  (∀ (k : Nat) (s : State) (o : NormalOutcome), runOutcome k s = .ended o →
    ∃ j ≤ k, ∃ t, core.run j s = .next t ∧ t.EndsNormallyWith o) ∧
  ∀ (j k : Nat) (s t : State), s.Inv → j ≤ k → core.run j s = .next t →
    t.pending = [] → t.status.busy = false →
    (∀ i ≤ j, ∀ u : State, core.run i s = .next u → u.status.fault = false) →
    ∃ o, runOutcome k s = .ended o ∧ t.EndsNormallyWith o

/-! ### Pseudo-instructions (spec/30_encoding.md R65) -/

/-- R65: MOV copies, ZERO clears, and the flags are unchanged. No host access falls in the run of the expansion (log
entry 14). -/
def Obligations.MovAndZero : Prop :=
  ∀ (s : State) (wd wa : Reg), s.accepts = true →
    (∃ t, runCommands (Pseudo.mov wd wa).expand s = .next t ∧ t.w = s.w.set wd (s.readW wa) ∧ t.flags = s.flags) ∧
    ∃ t, runCommands (Pseudo.zero wd).expand s = .next t ∧ t.w = s.w.set wd 0 ∧ t.flags = s.flags

/-- R65: ADD256 and SUB256 compute the 256-bit sum and difference modulo 2^256 with the carry-out or borrow-out in C,
under R65's alias constraints and with two different registers for the two halves of the result. No host access falls
between the two commands (log entry 14). -/
def Obligations.WideAddAndSub : Prop :=
  ∀ (s : State) (wl wh wal wah wbl wbh : Reg), s.accepts = true → wl ≠ wah → wl ≠ wbh → wl ≠ wh →
    let a := (s.readW wah).toNat * 2 ^ 128 + (s.readW wal).toNat
    let b := (s.readW wbh).toNat * 2 ^ 128 + (s.readW wbl).toNat
    (∃ t, runCommands (Pseudo.add256 wl wh wal wah wbl wbh).expand s = .next t ∧
      (t.readW wh).toNat * 2 ^ 128 + (t.readW wl).toNat = (a + b) % 2 ^ 256 ∧
      t.flags.c = decide (2 ^ 256 ≤ a + b)) ∧
    ∃ t, runCommands (Pseudo.sub256 wl wh wal wah wbl wbh).expand s = .next t ∧
      (t.readW wh).toNat * 2 ^ 128 + (t.readW wl).toNat = (a + 2 ^ 256 - b) % 2 ^ 256 ∧
      t.flags.c = decide (a < b)

/-- R65, R77: NORM leaves the leading-zero count in wn and, in wd, the operand shifted so that bit 127 is set. No host
access falls between the two commands (log entry 14). -/
def Obligations.NormSetsTheTopBit : Prop :=
  ∀ (s : State) (wd wn wa : Reg), s.accepts = true → wn ≠ wa → wd ≠ wn → s.readW wa ≠ 0 →
    ∃ t, runCommands (Pseudo.norm wd wn wa).expand s = .next t ∧
      (t.readW wn).toNat = 128 - Nat.size (s.readW wa).toNat ∧
      t.readW wd = s.readW wa <<< (t.readW wn).toNat ∧ (t.readW wd).getLsbD 127 = true
end

