-- ==== Sys2Proof/Laws/Decode.lean ====
section
/-! SUPPORT. The command word and its fields: packing and unpacking undo each other, and what the match and mask columns
select. -/

namespace Sys2Proof

/-! ### Words and fields as numbers -/

theorem append_toNat {n m : Nat} (x : BitVec n) (y : BitVec m) : (x ++ y).toNat = x.toNat * 2 ^ m + y.toNat := by
  rw [BitVec.toNat_append, ← Nat.shiftLeft_add_eq_or_of_lt y.isLt, Nat.shiftLeft_eq]

/-- The word's number, field by field (R52). -/
theorem pack_toNat (f : Fields) : (pack f).toNat =
    f.op.toNat * 2 ^ 26 + f.rd.val * 2 ^ 23 + f.re.val * 2 ^ 20 + f.ra.val * 2 ^ 17 + f.rb.val * 2 ^ 14
      + f.rc.val * 2 ^ 11 + f.rnd.toNat * 2 ^ 10 + f.rsv.toNat * 2 ^ 8 + f.imm.toNat := by
  simp only [pack, append_toNat, BitVec.toNat_ofFin, BitVec.toNat_ofBool]
  omega

theorem extract_toNat (w : CmdWord) (lo n : Nat) : (w.extractLsb' lo n).toNat = w.toNat / 2 ^ lo % 2 ^ n := by
  simp [BitVec.extractLsb'_toNat, Nat.shiftRight_eq_div_pow]

theorem regField_val (w : CmdWord) (lo : Nat) : (regField w lo).val = w.toNat / 2 ^ lo % 8 := by
  have := extract_toNat w lo 3
  simpa [regField] using this

theorem getLsbD_eq_decide (w : CmdWord) (k : Nat) : w.getLsbD k = decide (w.toNat / 2 ^ k % 2 = 1) := by
  rw [← BitVec.testBit_toNat, Nat.testBit_eq_decide_div_mod_eq]

/-! ### Packing and unpacking -/

theorem unpack_pack (f : Fields) : unpack (pack f) = f := by
  have h := pack_toNat f
  rcases f with ⟨op, rd, re, ra, rb, rc, rnd, rsv, imm⟩
  have := op.isLt; have := rsv.isLt; have := imm.isLt
  have := rd.isLt; have := re.isLt; have := ra.isLt; have := rb.isLt; have := rc.isLt
  have : rnd.toNat < 2 := by cases rnd <;> decide
  simp only at h
  simp only [unpack, Fields.mk.injEq]
  refine ⟨?_, ?_, ?_, ?_, ?_, ?_, ?_, ?_, ?_⟩
  case refine_7 =>
    rw [getLsbD_eq_decide, h]; cases rnd <;> simp <;> omega
  all_goals first
    | (apply Fin.ext; rw [regField_val, h]; omega)
    | (apply BitVec.eq_of_toNat_eq; rw [extract_toNat, h]; omega)

theorem pack_unpack (w : CmdWord) : pack (unpack w) = w := by
  apply BitVec.eq_of_toNat_eq
  have hw := w.isLt
  rw [pack_toNat]
  have hr : (unpack w).rnd.toNat = w.toNat / 2 ^ 10 % 2 := by
    simp only [unpack, getLsbD_eq_decide]
    rcases Nat.mod_two_eq_zero_or_one (w.toNat / 2 ^ 10) with h | h <;> simp only [h] <;> rfl
  rw [hr]
  simp only [unpack, regField_val, extract_toNat]
  omega

theorem pack_inj {f g : Fields} : pack f = pack g ↔ f = g :=
  ⟨fun h => by rw [← unpack_pack f, h, unpack_pack], fun h => by rw [h]⟩

/-! ### The CMD value and its word (R50) -/

theorem commandWord_setWidth (w : CmdWord) : commandWord (w.setWidth 64) = w := by
  apply BitVec.eq_of_toNat_eq
  have := w.isLt
  simp only [commandWord, BitVec.extractLsb'_toNat, BitVec.toNat_setWidth, Nat.shiftRight_zero]
  omega

theorem upper_setWidth (w : CmdWord) : (w.setWidth 64).extractLsb' 32 32 = 0#32 := by
  apply BitVec.eq_of_toNat_eq
  have := w.isLt
  simp only [BitVec.extractLsb'_toNat, BitVec.toNat_setWidth, Nat.shiftRight_eq_div_pow, BitVec.toNat_ofNat]
  omega

theorem setWidth_commandWord (v : Limb) (h : v.extractLsb' 32 32 = 0#32) : (commandWord v).setWidth 64 = v := by
  apply BitVec.eq_of_toNat_eq
  have := v.isLt
  have h' := congrArg BitVec.toNat h
  simp only [BitVec.extractLsb'_toNat, Nat.shiftRight_eq_div_pow, BitVec.toNat_ofNat] at h'
  simp only [commandWord, BitVec.extractLsb'_toNat, BitVec.toNat_setWidth, Nat.shiftRight_zero]
  omega

/-! ### Fields of a command -/

theorem fields_toInstr (i : Instr) : i.fields.toInstr i.opcode = i := by cases i <;> rfl

theorem fields_op (i : Instr) : i.fields.op = i.opcode.bits := by cases i <;> rfl

theorem fields_unusedZero (i : Instr) : i.fields.unusedZero i.opcode.uses = true := by
  cases i <;> simp [Instr.fields, Instr.opcode, Opcode.uses, Fields.unusedZero]

theorem ofBits_bits (o : Opcode) : Opcode.ofBits o.bits = some o := by cases o <;> rfl

theorem toInstr_opcode (f : Fields) (o : Opcode) : (f.toInstr o).opcode = o := by cases o <;> rfl

theorem bits_of_ofBits : ∀ {b : BitVec 6} {o : Opcode}, Opcode.ofBits b = some o → o.bits = b := by decide

/-- The fields of the command read from fields whose unused ones are 0 are those fields. -/
theorem toInstr_fields {f : Fields} {o : Opcode} (ho : Opcode.ofBits f.op = some o)
    (hz : f.unusedZero o.uses = true) : (f.toInstr o).fields = f := by
  have hb := bits_of_ofBits ho
  rcases f with ⟨op, rd, re, ra, rb, rc, rnd, rsv, imm⟩
  cases o <;> simp [Fields.unusedZero, Opcode.uses] at hz <;> simp [Fields.toInstr, Instr.fields, hz, hb]

/-! ### The match and mask columns (R59) -/

/-- The fields a mask keeps: OP, RSV, and those the opcode does not use. -/
def maskFields (o : Opcode) : Fields :=
  let u := o.uses
  { op := 0x3F
    rd := if u.rd then 0 else 7
    re := if u.re then 0 else 7
    ra := if u.ra then 0 else 7
    rb := if u.rb then 0 else 7
    rc := if u.rc then 0 else 7
    rnd := !u.rnd
    rsv := 3
    imm := if u.imm then 0 else 0xFF }

theorem mask_eq_pack (o : Opcode) : o.mask = pack (maskFields o) := by cases o <;> decide

theorem pattern_eq_pack (o : Opcode) : o.pattern = pack ⟨o.bits, 0, 0, 0, 0, 0, false, 0, 0⟩ := by cases o <;> decide

/-- The bitwise `and` of two words, field by field. -/
theorem pack_and (f g : Fields) :
    pack f &&& pack g =
      pack ⟨f.op &&& g.op, f.rd &&& g.rd, f.re &&& g.re, f.ra &&& g.ra, f.rb &&& g.rb, f.rc &&& g.rc,
        f.rnd && g.rnd, f.rsv &&& g.rsv, f.imm &&& g.imm⟩ := by
  have happ : ∀ {n m : Nat} (a c : BitVec n) (b d : BitVec m), (a ++ b) &&& (c ++ d) = (a &&& c) ++ (b &&& d) := by
    intro n m a c b d
    ext i hi
    simp only [BitVec.getElem_and, BitVec.getElem_append]
    split <;> rfl
  have hreg : ∀ a b : Reg,
      BitVec.ofFin (w := 3) a &&& BitVec.ofFin (w := 3) b = BitVec.ofFin (w := 3) (a &&& b) := by decide
  have hbool : ∀ a b : Bool, BitVec.ofBool a &&& BitVec.ofBool b = BitVec.ofBool (a && b) := by decide
  simp only [pack, happ, hreg, hbool]

/-- A word matches an opcode's row exactly when OP is the opcode's and every unused field is 0. -/
theorem match_iff (w : CmdWord) (o : Opcode) :
    w &&& o.mask = o.pattern ↔ (unpack w).op = o.bits ∧ (unpack w).unusedZero o.uses = true := by
  have h7 : ∀ r : Reg, r &&& 7 = r := by decide
  have h0 : ∀ r : Reg, r &&& 0 = 0 := by decide
  have h3f : ∀ x : BitVec 6, x &&& 0x3F#6 = x := by decide
  have h3 : ∀ x : BitVec 2, x &&& 3#2 = x := by decide
  have hff : ∀ x : BitVec 8, x &&& 0xFF#8 = x := by decide
  conv_lhs => rw [← pack_unpack w, mask_eq_pack, pattern_eq_pack, pack_and, pack_inj]
  generalize unpack w = f
  rcases f with ⟨op, rd, re, ra, rb, rc, rnd, rsv, imm⟩
  cases o <;>
    simp [maskFields, Opcode.uses, Fields.unusedZero, h7, h0, h3f, h3, hff, and_assoc]

end Sys2Proof
end

