-- ==== Sys2Proof/Laws/State.lean ====
section
/-! SUPPORT. One lemma per field per update of the state, each true by `rfl`, so that no proof unfolds a record
update. -/

namespace Sys2Proof.Machine

section
variable (s : State)

/-! ### `writeW` -/

@[simp] theorem State.writeW_w (i : Reg) (v : Wide) : (s.writeW i v).w = s.w.set i v := rfl
@[simp] theorem State.writeW_flags (i : Reg) (v : Wide) : (s.writeW i v).flags = s.flags := rfl
@[simp] theorem State.writeW_status (i : Reg) (v : Wide) : (s.writeW i v).status = s.status := rfl
@[simp] theorem State.writeW_ctrl (i : Reg) (v : Wide) : (s.writeW i v).ctrl = s.ctrl := rfl
@[simp] theorem State.writeW_cmd (i : Reg) (v : Wide) : (s.writeW i v).cmd = s.cmd := rfl
@[simp] theorem State.writeW_inFlight (i : Reg) (v : Wide) : (s.writeW i v).inFlight = s.inFlight := rfl
@[simp] theorem State.writeW_pending (i : Reg) (v : Wide) : (s.writeW i v).pending = s.pending := rfl
@[simp] theorem State.writeW_responses (i : Reg) (v : Wide) : (s.writeW i v).responses = s.responses := rfl
@[simp] theorem State.writeW_turn (i : Reg) (v : Wide) : (s.writeW i v).turn = s.turn := rfl

/-! ### `launch` -/

@[simp] theorem State.launch_w (r : InFlight) : (s.launch r).w = s.w := rfl
@[simp] theorem State.launch_flags (r : InFlight) : (s.launch r).flags = s.flags := rfl
@[simp] theorem State.launch_status (r : InFlight) : (s.launch r).status = { s.status with busy := true } := rfl
@[simp] theorem State.launch_ctrl (r : InFlight) : (s.launch r).ctrl = s.ctrl := rfl
@[simp] theorem State.launch_cmd (r : InFlight) : (s.launch r).cmd = s.cmd := rfl
@[simp] theorem State.launch_inFlight (r : InFlight) : (s.launch r).inFlight = some r := rfl
@[simp] theorem State.launch_pending (r : InFlight) : (s.launch r).pending = s.pending := rfl
@[simp] theorem State.launch_responses (r : InFlight) : (s.launch r).responses = s.responses := rfl
@[simp] theorem State.launch_turn (r : InFlight) : (s.launch r).turn = s.turn := rfl

/-! ### `enterFault` -/

@[simp] theorem State.enterFault_w (k : Fault) : (s.enterFault k).w = s.w := rfl
@[simp] theorem State.enterFault_flags (k : Fault) : (s.enterFault k).flags = s.flags := rfl
@[simp] theorem State.enterFault_status (k : Fault) : (s.enterFault k).status = { s.status with fault := true, fcode := k.code } := rfl
@[simp] theorem State.enterFault_ctrl (k : Fault) : (s.enterFault k).ctrl = s.ctrl := rfl
@[simp] theorem State.enterFault_cmd (k : Fault) : (s.enterFault k).cmd = s.cmd := rfl
@[simp] theorem State.enterFault_inFlight (k : Fault) : (s.enterFault k).inFlight = s.inFlight := rfl
@[simp] theorem State.enterFault_pending (k : Fault) : (s.enterFault k).pending = s.pending := rfl
@[simp] theorem State.enterFault_responses (k : Fault) : (s.enterFault k).responses = s.responses := rfl
@[simp] theorem State.enterFault_turn (k : Fault) : (s.enterFault k).turn = s.turn := rfl

/-! ### `applyReset` -/

@[simp] theorem State.applyReset_w : (s.applyReset).w = Vector.replicate 8 0 := rfl
@[simp] theorem State.applyReset_flags : (s.applyReset).flags = ⟨false, 0⟩ := rfl
@[simp] theorem State.applyReset_status : (s.applyReset).status = ⟨false, false, false, 0⟩ := rfl
@[simp] theorem State.applyReset_ctrl : (s.applyReset).ctrl = ⟨false, false⟩ := rfl
@[simp] theorem State.applyReset_cmd : (s.applyReset).cmd = 0 := rfl
@[simp] theorem State.applyReset_inFlight : (s.applyReset).inFlight = none := rfl
@[simp] theorem State.applyReset_pending : (s.applyReset).pending = s.pending := rfl
@[simp] theorem State.applyReset_responses : (s.applyReset).responses = s.responses := rfl
@[simp] theorem State.applyReset_turn : (s.applyReset).turn = s.turn := rfl

/-! ### `respond` -/

@[simp] theorem State.respond_w (r : Response) : (s.respond r).w = s.w := rfl
@[simp] theorem State.respond_flags (r : Response) : (s.respond r).flags = s.flags := rfl
@[simp] theorem State.respond_status (r : Response) : (s.respond r).status = s.status := rfl
@[simp] theorem State.respond_ctrl (r : Response) : (s.respond r).ctrl = s.ctrl := rfl
@[simp] theorem State.respond_cmd (r : Response) : (s.respond r).cmd = s.cmd := rfl
@[simp] theorem State.respond_inFlight (r : Response) : (s.respond r).inFlight = s.inFlight := rfl
@[simp] theorem State.respond_pending (r : Response) : (s.respond r).pending = s.pending := rfl
@[simp] theorem State.respond_responses (r : Response) : (s.respond r).responses = r :: s.responses := rfl
@[simp] theorem State.respond_turn (r : Response) : (s.respond r).turn = s.turn := rfl

/-! ### `nextTurn` -/

@[simp] theorem State.nextTurn_w : (s.nextTurn).w = s.w := rfl
@[simp] theorem State.nextTurn_flags : (s.nextTurn).flags = s.flags := rfl
@[simp] theorem State.nextTurn_status : (s.nextTurn).status = s.status := rfl
@[simp] theorem State.nextTurn_ctrl : (s.nextTurn).ctrl = s.ctrl := rfl
@[simp] theorem State.nextTurn_cmd : (s.nextTurn).cmd = s.cmd := rfl
@[simp] theorem State.nextTurn_inFlight : (s.nextTurn).inFlight = s.inFlight := rfl
@[simp] theorem State.nextTurn_pending : (s.nextTurn).pending = s.pending := rfl
@[simp] theorem State.nextTurn_responses : (s.nextTurn).responses = s.responses := rfl
@[simp] theorem State.nextTurn_turn : (s.nextTurn).turn = s.turn + 1 := rfl

/-! ### `dropPending` -/

@[simp] theorem State.dropPending_w (rest : List Input) : (s.dropPending rest).w = s.w := rfl
@[simp] theorem State.dropPending_flags (rest : List Input) : (s.dropPending rest).flags = s.flags := rfl
@[simp] theorem State.dropPending_status (rest : List Input) : (s.dropPending rest).status = s.status := rfl
@[simp] theorem State.dropPending_ctrl (rest : List Input) : (s.dropPending rest).ctrl = s.ctrl := rfl
@[simp] theorem State.dropPending_cmd (rest : List Input) : (s.dropPending rest).cmd = s.cmd := rfl
@[simp] theorem State.dropPending_inFlight (rest : List Input) : (s.dropPending rest).inFlight = s.inFlight := rfl
@[simp] theorem State.dropPending_pending (rest : List Input) : (s.dropPending rest).pending = rest := rfl
@[simp] theorem State.dropPending_responses (rest : List Input) : (s.dropPending rest).responses = s.responses := rfl
@[simp] theorem State.dropPending_turn (rest : List Input) : (s.dropPending rest).turn = s.turn := rfl

/-! ### `writeLo` -/

@[simp] theorem State.writeLo_w (n : Reg) (v : Limb) : (s.writeLo n v).w = s.w.set n (ofLimbs v (hiLimb (s.readW n))) := rfl
@[simp] theorem State.writeLo_flags (n : Reg) (v : Limb) : (s.writeLo n v).flags = s.flags := rfl
@[simp] theorem State.writeLo_status (n : Reg) (v : Limb) : (s.writeLo n v).status = s.status := rfl
@[simp] theorem State.writeLo_ctrl (n : Reg) (v : Limb) : (s.writeLo n v).ctrl = s.ctrl := rfl
@[simp] theorem State.writeLo_cmd (n : Reg) (v : Limb) : (s.writeLo n v).cmd = s.cmd := rfl
@[simp] theorem State.writeLo_inFlight (n : Reg) (v : Limb) : (s.writeLo n v).inFlight = s.inFlight := rfl
@[simp] theorem State.writeLo_pending (n : Reg) (v : Limb) : (s.writeLo n v).pending = s.pending := rfl
@[simp] theorem State.writeLo_responses (n : Reg) (v : Limb) : (s.writeLo n v).responses = s.responses := rfl
@[simp] theorem State.writeLo_turn (n : Reg) (v : Limb) : (s.writeLo n v).turn = s.turn := rfl

/-! ### `writeHi` -/

@[simp] theorem State.writeHi_w (n : Reg) (v : Limb) : (s.writeHi n v).w = s.w.set n (ofLimbs (loLimb (s.readW n)) v) := rfl
@[simp] theorem State.writeHi_flags (n : Reg) (v : Limb) : (s.writeHi n v).flags = s.flags := rfl
@[simp] theorem State.writeHi_status (n : Reg) (v : Limb) : (s.writeHi n v).status = s.status := rfl
@[simp] theorem State.writeHi_ctrl (n : Reg) (v : Limb) : (s.writeHi n v).ctrl = s.ctrl := rfl
@[simp] theorem State.writeHi_cmd (n : Reg) (v : Limb) : (s.writeHi n v).cmd = s.cmd := rfl
@[simp] theorem State.writeHi_inFlight (n : Reg) (v : Limb) : (s.writeHi n v).inFlight = s.inFlight := rfl
@[simp] theorem State.writeHi_pending (n : Reg) (v : Limb) : (s.writeHi n v).pending = s.pending := rfl
@[simp] theorem State.writeHi_responses (n : Reg) (v : Limb) : (s.writeHi n v).responses = s.responses := rfl
@[simp] theorem State.writeHi_turn (n : Reg) (v : Limb) : (s.writeHi n v).turn = s.turn := rfl

/-! ### Reads of a register -/

@[simp] theorem State.readW_writeW_self (i : Reg) (v : Wide) : (s.writeW i v).readW i = v := by
  simp [State.readW]

theorem State.readW_writeW_other {i j : Reg} (v : Wide) (h : j ≠ i) : (s.writeW i v).readW j = s.readW j := by
  have hne : i.val ≠ j.val := fun e => h (Fin.ext e.symm)
  simp [State.readW, Vector.getElem_set_ne, hne]

@[simp] theorem State.readW_reset (i : Reg) : State.reset.readW i = 0 := by
  simp [State.readW, State.reset]

end

end Sys2Proof.Machine
end

