-- ==== Sys2Proof/Laws/Ops.lean ====
section
/-! SUPPORT. What each shared operation can do, said once: the issue checks, the register writes of a record, and the
completion. -/

namespace Sys2Proof.Machine

/-! ### The state before an issue -/

theorem fault_of_accepts {s : State} (h : s.accepts = true) : s.status.fault = false := by
  simpa using (Bool.and_eq_true_iff.1 h).1

theorem busy_of_accepts {s : State} (h : s.accepts = true) : s.status.busy = false := by
  simpa using (Bool.and_eq_true_iff.1 h).2

/-! ### The checks at issue -/

@[simp] theorem withDistinct_self (s : State) (r : Reg) (go : Host.Outcome State Fault Refusal) :
    s.withDistinct r r go = s.raise .illegalCommand := if_pos rfl

theorem withDistinct_ne (s : State) {rd re : Reg} (h : rd ≠ re) (go : Host.Outcome State Fault Refusal) :
    s.withDistinct rd re go = go := if_neg h

@[simp] theorem withDivisor_zero (s : State) (go : Host.Outcome State Fault Refusal) :
    s.withDivisor 0 go = s.raise .divideByZero := if_pos rfl

theorem withDivisor_ne (s : State) {d : Nat} (h : d ≠ 0) (go : Host.Outcome State Fault Refusal) :
    s.withDivisor d go = go := if_neg h

/-! ### Register writes of a record -/

@[simp] theorem applyWrites_nil (s : State) : s.applyWrites [] = s := rfl

@[simp] theorem applyWrites_cons (s : State) (p : Reg × Wide) (ws : List (Reg × Wide)) :
    s.applyWrites (p :: ws) = (s.writeW p.1 p.2).applyWrites ws := rfl

/-- Register writes change W and nothing else. -/
theorem applyWrites_frame (ws : List (Reg × Wide)) (s : State) :
    s.applyWrites ws = { s with w := (s.applyWrites ws).w } := by
  induction ws generalizing s with
  | nil => rfl
  | cons p ws ih => simpa [State.writeW] using ih (s.writeW p.1 p.2)

/-- What register writes leave in W depends on W alone. -/
theorem applyWrites_w_congr (ws : List (Reg × Wide)) {s t : State} (h : s.w = t.w) :
    (s.applyWrites ws).w = (t.applyWrites ws).w := by
  induction ws generalizing s t with
  | nil => exact h
  | cons p ws ih => exact ih (by simp [h])

/-- A register that no write names keeps its value. -/
theorem readW_applyWrites_of_notMem {ws : List (Reg × Wide)} {n : Reg} (s : State)
    (h : n ∉ ws.map Prod.fst) : (s.applyWrites ws).readW n = s.readW n := by
  induction ws generalizing s with
  | nil => rfl
  | cons p ws ih =>
    simp only [List.map_cons, List.mem_cons, not_or] at h
    rw [applyWrites_cons, ih _ h.2, State.readW_writeW_other _ _ h.1]

/-- A register that exactly one write names takes that write's value. -/
theorem readW_applyWrites_of_mem {ws : List (Reg × Wide)} {n : Reg} {v : Wide} (s : State)
    (hn : (ws.map Prod.fst).Nodup) (h : (n, v) ∈ ws) : (s.applyWrites ws).readW n = v := by
  induction ws generalizing s with
  | nil => cases h
  | cons p ws ih =>
    simp only [List.map_cons, List.nodup_cons] at hn
    rcases List.mem_cons.1 h with rfl | h
    · rw [applyWrites_cons, readW_applyWrites_of_notMem _ hn.1, State.readW_writeW_self]
    · exact ih _ hn.2 h

/-! ### Completion -/

/-- With nothing in flight, completion changes nothing. -/
theorem complete_of_none {s : State} (h : s.inFlight = none) : s.complete = s := by simp [State.complete, h]

/-- Completion of a record, with every field it leaves alone in sight (R111). -/
theorem complete_of_some {s : State} {r : InFlight} (h : s.inFlight = some r) :
    s.complete =
      { s with
        w := (s.applyWrites r.regWrites).w
        flags := r.flagsAfter s.flags
        inFlight := none
        status := { s.status with busy := false, done := true } } := by
  simp only [State.complete, h]
  rw [applyWrites_frame]

@[simp] theorem complete_pending (s : State) : s.complete.pending = s.pending := by
  cases h : s.inFlight with
  | none => rw [complete_of_none h]
  | some r => rw [complete_of_some h]

@[simp] theorem complete_inFlight (s : State) : s.complete.inFlight = none := by
  cases h : s.inFlight with
  | none => rw [complete_of_none h, h]
  | some r => rw [complete_of_some h]

/-- Completion and the choice counter do not touch each other. -/
theorem complete_withTurn (s : State) (n : Nat) :
    State.complete { s with turn := n } = { s.complete with turn := n } := by
  rcases Option.eq_none_or_eq_some s.inFlight with h | ⟨r, h⟩
  · rw [complete_of_none h, complete_of_none (s := { s with turn := n }) h]
  · rw [complete_of_some h, complete_of_some (s := { s with turn := n }) h]
    simp only [State.mk.injEq, and_true]
    exact applyWrites_w_congr _ rfl

/-- A command completes when its issue launches a record whose writes are the given ones. -/
theorem completes_of_issue {i : Instr} {s : State} {w' : Vector Wide 8} {f' : Flags} (r : InFlight)
    (h : exec i s = s.issue r) (hw : (s.applyWrites r.regWrites).w = w') (hf : r.flagsAfter s.flags = f') :
    Completes i s w' f' := by
  refine ⟨r, h, ?_⟩
  rw [complete_of_some (r := r) rfl, ← hw, ← hf]
  congr 1
  exact applyWrites_w_congr _ rfl

end Sys2Proof.Machine
end

