-- ==== Sys2Proof/Laws/Exec.lean ====
section
/-! SUPPORT. What `exec` can do, said once: which record or fault an issue leaves, and which part of the state it
depends on. -/

namespace Sys2Proof.Machine

/-- Inversion of `exec`: it launches a legal record of the command's opcode, or it raises one of the three faults, each
under the commands that can raise it (R88). -/
theorem exec_cases (i : Instr) (s : State) :
   (∃ r : InFlight, r.Legal ∧ r.op = i.opcode ∧ exec i s = s.issue r) ∨
   (i.wf = false ∧ exec i s = s.raise .illegalCommand) ∨
   (i.opcode ∈ [Opcode.div64, .div128, .divf, .divw64] ∧ exec i s = s.raise .divideByZero) ∨
   (i.opcode = .divf ∧ exec i s = s.raise .divideOverflow) := by
  have h1 : ∀ op rd v, registersWritten op = 1 → writesCarry op = false → op ≠ .cmp → (oneWrite op rd v).Legal := by
    intro op rd v a b c; simp [InFlight.Legal, oneWrite, a, b, c]
  have h2 : ∀ op rd re v u, rd ≠ re → registersWritten op = 2 → writesCarry op = false → op ≠ .cmp → (twoWrites op rd re v u).Legal := by
    intro op rd re v u a b c d; simp [InFlight.Legal, twoWrites, a, b, c, d]
  have h3 : ∀ op rd v, registersWritten op = 1 → writesCarry op = true → op ≠ .cmp → (carryWrites op rd v).Legal := by
    intro op rd v a b c; simp [InFlight.Legal, carryWrites, a, b, c]
  have hcmp : ∀ x, cmpCode x ≠ 2#2 := by intro x; simp only [cmpCode]; split <;> [skip; split] <;> decide
  have hd : ∀ (rd re : Reg) go, rd ≠ re ∧ s.withDistinct rd re go = go ∨ rd = re ∧ s.withDistinct rd re go = s.raise .illegalCommand := by
    intro rd re go
    by_cases h : rd = re
    · right; exact ⟨h, if_pos h⟩
    · left; exact ⟨h, if_neg h⟩
  have hz : ∀ (d : Nat) go, s.withDivisor d go = go ∨ s.withDivisor d go = s.raise .divideByZero := by
    intro d go
    by_cases h : d = 0
    · right; exact if_pos h
    · left; exact if_neg h
  cases i with
  | cmp ra rb => left; exact ⟨_, by simp [InFlight.Legal, writesCarry, registersWritten, hcmp], rfl, rfl⟩
  | add | adc | sub | sbb => left; exact ⟨_, h3 _ _ _ rfl rfl (by decide), rfl, rfl⟩
  | shl | shr | shli | shri | clz | mul64 => left; exact ⟨_, h1 _ _ _ rfl rfl (by decide), rfl, rfl⟩
  | mulf rd re ra rb =>
    rcases hd rd re _ with ⟨a, b⟩ | ⟨a, b⟩
    · left; exact ⟨_, h2 _ _ _ _ _ a rfl rfl (by decide), rfl, b⟩
    · right; left; exact ⟨by simp [Instr.wf, Instr.destinationPair, a], b⟩
  | div64 rd re ra rb =>
    rcases hd rd re _ with ⟨a, b⟩ | ⟨a, b⟩
    · rcases hz _ _ with c | c
      · left; exact ⟨_, h2 _ _ _ _ _ a rfl rfl (by decide), rfl, b.trans c⟩
      · right; right; left; exact ⟨by simp [Instr.opcode], b.trans c⟩
    · right; left; exact ⟨by simp [Instr.wf, Instr.destinationPair, a], b⟩
  | div128 rd re ra rb =>
    rcases hd rd re _ with ⟨a, b⟩ | ⟨a, b⟩
    · rcases hz _ _ with c | c
      · left; exact ⟨_, h2 _ _ _ _ _ a rfl rfl (by decide), rfl, b.trans c⟩
      · right; right; left; exact ⟨by simp [Instr.opcode], b.trans c⟩
    · right; left; exact ⟨by simp [Instr.wf, Instr.destinationPair, a], b⟩
  | divw64 rd re rc ra rb rnd =>
    rcases hd rd re _ with ⟨a, b⟩ | ⟨a, b⟩
    · rcases hz _ _ with c | c
      · left; exact ⟨_, h2 _ _ _ _ _ a rfl rfl (by decide), rfl, b.trans c⟩
      · right; right; left; exact ⟨by simp [Instr.opcode], b.trans c⟩
    · right; left; exact ⟨by simp [Instr.wf, Instr.destinationPair, a], b⟩
  | divf rd re rc ra rb =>
    rcases hd rd re _ with ⟨a, b⟩ | ⟨a, b⟩
    · rcases hz _ _ with c | c
      · by_cases ho : (wideOperand s rb).toNat ≤ (wideOperand s rc).toNat
        · right; right; right; exact ⟨rfl, b.trans (c.trans (if_pos ho))⟩
        · left; exact ⟨_, h2 _ _ _ _ _ a rfl rfl (by decide), rfl, b.trans (c.trans (if_neg ho))⟩
      · right; right; left; exact ⟨by simp [Instr.opcode], b.trans c⟩
    · right; left; exact ⟨by simp [Instr.wf, Instr.destinationPair, a], b⟩


/-- An issue depends on W and FLAGS alone (R19, R31): two states that agree on them launch the same record or raise the
same fault. -/
theorem exec_congr (i : Instr) {s t : State} (hw : s.w = t.w) (hf : s.flags = t.flags) :
    (∃ r : InFlight, exec i s = s.issue r ∧ exec i t = t.issue r) ∨
      (∃ k : Fault, exec i s = s.raise k ∧ exec i t = t.raise k) := by
  have hr : ∀ n, t.readW n = s.readW n := fun n => by simp only [State.readW, hw]
  have hd : ∀ (rd re : Reg) (a b : Host.Outcome State Fault Refusal),
      ((∃ r : InFlight, a = s.issue r ∧ b = t.issue r) ∨ ∃ k : Fault, a = s.raise k ∧ b = t.raise k) →
      (∃ r : InFlight, s.withDistinct rd re a = s.issue r ∧ t.withDistinct rd re b = t.issue r) ∨
        ∃ k : Fault, s.withDistinct rd re a = s.raise k ∧ t.withDistinct rd re b = t.raise k := by
    intro rd re a b h
    by_cases e : rd = re
    · subst e; exact Or.inr ⟨_, withDistinct_self s rd a, withDistinct_self t rd b⟩
    · rwa [withDistinct_ne s e, withDistinct_ne t e]
  have hz : ∀ (d : Nat) (a b : Host.Outcome State Fault Refusal),
      ((∃ r : InFlight, a = s.issue r ∧ b = t.issue r) ∨ ∃ k : Fault, a = s.raise k ∧ b = t.raise k) →
      (∃ r : InFlight, s.withDivisor d a = s.issue r ∧ t.withDivisor d b = t.issue r) ∨
        ∃ k : Fault, s.withDivisor d a = s.raise k ∧ t.withDivisor d b = t.raise k := by
    intro d a b h
    by_cases e : d = 0
    · subst e; exact Or.inr ⟨_, withDivisor_zero s a, withDivisor_zero t b⟩
    · rwa [withDivisor_ne s e, withDivisor_ne t e]
  cases i <;>
    simp only [exec, execAdd, execAdc, execSub, execSbb, execCmp, execShl, execShr, execShli, execShri, execClz,
      execMulf, execMul64, execDiv64, execDiv128, execDivf, execDivw64, wideOperand, narrowOperand,
      registerAmount, wideDividend, hr, ← hf]
  case mulf => exact hd _ _ _ _ (Or.inl ⟨_, rfl, rfl⟩)
  case div64 | div128 | divw64 => exact hd _ _ _ _ (hz _ _ _ (Or.inl ⟨_, rfl, rfl⟩))
  case divf rd re rc ra rb =>
    refine hd _ _ _ _ (hz _ _ _ ?_)
    by_cases h : (s.readW rb).toNat ≤ (s.readW rc).toNat
    · exact Or.inr ⟨_, if_pos h, if_pos h⟩
    · exact Or.inl ⟨_, if_neg h, if_neg h⟩
  all_goals exact Or.inl ⟨_, rfl, rfl⟩

end Sys2Proof.Machine
end

