-- ==== Sys2Proof/Laws/Limbs.lean ====
section
/-! SUPPORT. Limbs as numbers, and the sums and differences with their carry and borrow in closed form. -/

namespace Sys2Proof.Machine

theorem hiLimb_toNat (a : Wide) : (hiLimb a).toNat = a.toNat / 2 ^ 64 := by
  have := a.isLt
  simp only [hiLimb, BitVec.extractLsb'_toNat, Nat.shiftRight_eq_div_pow]
  omega

theorem loLimb_toNat (a : Wide) : (loLimb a).toNat = a.toNat % 2 ^ 64 := by
  simp [loLimb, BitVec.extractLsb'_toNat]

/-- `value = hi·2^64 + lo` (R17). -/
theorem ofLimbs_toNat (lo hi : Limb) : (ofLimbs lo hi).toNat = hi.toNat * 2 ^ 64 + lo.toNat := by
  simp only [ofLimbs, append_toNat]

@[simp] theorem loLimb_ofLimbs (lo hi : Limb) : loLimb (ofLimbs lo hi) = lo := by
  apply BitVec.eq_of_toNat_eq
  rw [loLimb_toNat, ofLimbs_toNat]
  have := lo.isLt
  omega

@[simp] theorem hiLimb_ofLimbs (lo hi : Limb) : hiLimb (ofLimbs lo hi) = hi := by
  apply BitVec.eq_of_toNat_eq
  rw [hiLimb_toNat, ofLimbs_toNat]
  have := lo.isLt
  omega

@[simp] theorem ofLimbs_limbs (a : Wide) : ofLimbs (loLimb a) (hiLimb a) = a := by
  apply BitVec.eq_of_toNat_eq
  rw [ofLimbs_toNat, loLimb_toNat, hiLimb_toNat]
  omega

/-- `s[128]` of a sum is its carry out of 128 bits (R67, R68). -/
theorem addWithCarry_eq (a b : Wide) (cin : Bool) :
    addWithCarry a b cin =
      (trunc128 (a.toNat + b.toNat + cin.toNat), decide (2 ^ 128 ≤ a.toNat + b.toNat + cin.toNat)) := by
  have := a.isLt; have := b.isLt
  have : cin.toNat < 2 := by cases cin <;> decide
  simp only [addWithCarry, Prod.mk.injEq, true_and, Nat.testBit_eq_decide_div_mod_eq, decide_eq_decide]
  omega

/-- The difference over the integers (R69, R70). -/
theorem subWithBorrow_eq (a b : Wide) (bin : Bool) :
    subWithBorrow a b bin =
      (BitVec.ofInt 128 ((a.toNat : Int) - b.toNat - bin.toNat + 2 ^ 128), decide (a.toNat < b.toNat + bin.toNat)) := by
  have := a.isLt; have := b.isLt
  have : bin.toNat < 2 := by cases bin <;> decide
  simp only [subWithBorrow, Prod.mk.injEq, and_true]
  rw [trunc128, ← BitVec.ofInt_natCast]
  congr 1
  omega

end Sys2Proof.Machine
end

