-- ==== Sys2Proof/Laws/PerInstr.lean ====
section
/-! SUPPORT. Statements about every command as syntax, one lemma per constructor of `Instr`. -/

/-- The command's word matches its own row of spec/30_encoding.md R59: under the row's mask it is the row's match
value. -/
def Sys2Proof.Laws.RowMatch.Statement (i : Sys2Proof.Instr) : Prop :=
  Sys2Proof.encode i &&& i.opcode.mask = i.opcode.pattern

namespace Sys2Proof.Laws.RowMatch

/-- The one proof, for whichever command. -/
theorem of_fields (i : Instr) : Statement i := by
  rw [Statement, match_iff, encode, unpack_pack]
  exact ⟨fields_op i, fields_unusedZero i⟩

theorem add (rd ra rb : Reg) : Statement (.add rd ra rb) := of_fields _
theorem adc (rd ra rb : Reg) : Statement (.adc rd ra rb) := of_fields _
theorem sub (rd ra rb : Reg) : Statement (.sub rd ra rb) := of_fields _
theorem sbb (rd ra rb : Reg) : Statement (.sbb rd ra rb) := of_fields _
theorem cmp (ra rb : Reg) : Statement (.cmp ra rb) := of_fields _
theorem shl (rd ra rb : Reg) : Statement (.shl rd ra rb) := of_fields _
theorem shr (rd ra rb : Reg) : Statement (.shr rd ra rb) := of_fields _
theorem shli (rd ra : Reg) (imm : BitVec 8) : Statement (.shli rd ra imm) := of_fields _
theorem shri (rd ra : Reg) (imm : BitVec 8) : Statement (.shri rd ra imm) := of_fields _
theorem clz (rd ra : Reg) : Statement (.clz rd ra) := of_fields _
theorem mulf (rd re ra rb : Reg) : Statement (.mulf rd re ra rb) := of_fields _
theorem mul64 (rd ra rb : Reg) : Statement (.mul64 rd ra rb) := of_fields _
theorem div64 (rd re ra rb : Reg) : Statement (.div64 rd re ra rb) := of_fields _
theorem div128 (rd re ra rb : Reg) : Statement (.div128 rd re ra rb) := of_fields _
theorem divf (rd re rc ra rb : Reg) : Statement (.divf rd re rc ra rb) := of_fields _
theorem divw64 (rd re rc ra rb : Reg) (rnd : Bool) : Statement (.divw64 rd re rc ra rb rnd) := of_fields _

end Sys2Proof.Laws.RowMatch
end

