-- ==== Sys2Proof/Laws/Window.lean ====
section
/-! SUPPORT. What an access can do, said once: the map, the write of each register, and the inversion of performing an
input. -/

namespace Sys2Proof.Machine

/-! ### The map -/

/-- Where an admitted offset lies, by the register that stands there (R36). -/
theorem windowReg_offset : ∀ off : Offset, off.extractLsb' 0 3 = 0#3 →
    (match windowReg off with
      | .wLo _ => decide (off.toNat ≤ 0x70)
      | .wHi _ => decide (off.toNat ≤ 0x78)
      | .cmd => off == 0x80#8
      | .status => off == 0x88#8
      | .flags => off == 0x90#8
      | .ctrl => off == 0x98#8
      | .id => off == 0xA0#8
      | .reserved => decide (0xA8 ≤ off.toNat)) = true := by decide

theorem windowReg_cmd : windowReg 0x80 = .cmd := by decide
theorem windowReg_status : windowReg 0x88 = .status := by decide
theorem windowReg_flags : windowReg 0x90 = .flags := by decide
theorem windowReg_ctrl : windowReg 0x98 = .ctrl := by decide
theorem windowReg_id : windowReg 0xA0 = .id := by decide

/-! ### Writes -/

theorem hostWrite_cmd (s : State) (v : Limb) : s.hostWrite 0x80 v = s.unlessFaulted (s.issueWord v) := by
  rw [State.hostWrite, windowReg_cmd]; rfl

theorem hostWrite_status (s : State) (v : Limb) :
    s.hostWrite 0x88 v = .next { s with status := s.status.afterWrite v } := by
  rw [State.hostWrite, windowReg_status]; rfl

theorem hostWrite_flags (s : State) (v : Limb) :
    s.hostWrite 0x90 v = s.unlessFaulted (.next { s with flags := Flags.ofWord v }) := by
  rw [State.hostWrite, windowReg_flags]; rfl

theorem hostWrite_ctrl (s : State) (v : Limb) : s.hostWrite 0x98 v = .next { s with ctrl := Ctrl.ofWord v } := by
  rw [State.hostWrite, windowReg_ctrl]; rfl

theorem unlessFaulted_true {s : State} (h : s.status.fault = true) (go : Host.Outcome State Fault Refusal) :
    s.unlessFaulted go = .next s := if_pos h

theorem unlessFaulted_false {s : State} (h : s.status.fault = false) (go : Host.Outcome State Fault Refusal) :
    s.unlessFaulted go = go := if_neg (by simp [State.faulted, h])

/-- Inversion of an issue: with the read-back set, it launches a legal record or raises a fault (R110). -/
theorem issueWord_cases (s : State) (v : Limb) :
    (∃ r : InFlight, r.Legal ∧ s.issueWord v = State.issue { s with cmd := commandWord v } r) ∨
      ∃ k : Fault, s.issueWord v = State.raise { s with cmd := commandWord v } k := by
  simp only [State.issueWord]
  split
  · exact Or.inr ⟨_, rfl⟩
  · rename_i i _
    rcases exec_cases i { s with cmd := commandWord v } with ⟨r, hl, -, e⟩ | ⟨-, e⟩ | ⟨-, e⟩ | ⟨-, e⟩
    · exact Or.inl ⟨r, hl, e⟩
    all_goals exact Or.inr ⟨_, e⟩

/-! ### Accesses -/

theorem admitted_write (off : Offset) (v : Limb) (h : off.extractLsb' 0 3 = 0#3) :
    (HostAccess.write off 64 v).admitted = true := by
  simp [HostAccess.admitted, HostAccess.width, HostAccess.off, h]

/-- A write that is admitted is answered and then done. -/
theorem perform_write (s : State) (off : Offset) (v : Limb) (h : off.extractLsb' 0 3 = 0#3) :
    s.perform (.access (.write off 64 v)) = (s.respond .written).hostWrite off v := by
  simp only [State.perform, State.performAccess, admitted_write off v h, if_true]

/-- Inversion of performing an input: a RESET; an access that changes nothing of the unit; a write to a register limb,
to FLAGS, to STATUS or to CTRL; or an issue. -/
theorem perform_cases {s s' : State} {inp : Input} (h : s.perform inp = .next s') :
    (inp = .reset ∧ s' = s.applyReset) ∨
    (∃ r : Response, s' = s.respond r) ∨
    (∃ off v n x, inp = .access (.write off 64 v) ∧ off.extractLsb' 0 3 = 0#3 ∧ off.toNat ≤ 0x78 ∧
      s.status.fault = false ∧
      s' = (s.respond .written).writeW n x) ∨
    (∃ v, inp = .access (.write 0x90 64 v) ∧ s.status.fault = false ∧
      s' = { s.respond .written with flags := Flags.ofWord v }) ∨
    (∃ v, inp = .access (.write 0x88 64 v) ∧ s' = { s.respond .written with status := s.status.afterWrite v }) ∨
    (∃ v, inp = .access (.write 0x98 64 v) ∧ s' = { s.respond .written with ctrl := Ctrl.ofWord v }) ∨
    (∃ v, inp = .access (.write 0x80 64 v) ∧ s.status.fault = false ∧
      ((∃ r : InFlight, r.Legal ∧ s' = State.launch { s.respond .written with cmd := commandWord v } r) ∨
        ∃ k : Fault, s' = State.enterFault { s.respond .written with cmd := commandWord v } k)) := by
  cases inp with
  | reset => cases h; exact Or.inl ⟨rfl, rfl⟩
  | access a =>
    right
    simp only [State.perform, State.performAccess] at h
    split at h
    case isFalse => cases h; exact Or.inl ⟨_, rfl⟩
    rename_i ha
    cases a with
    | read off w => cases h; exact Or.inl ⟨_, rfl⟩
    | write off w v =>
      simp only [HostAccess.admitted, HostAccess.width, HostAccess.off, Bool.and_eq_true, beq_iff_eq] at ha
      obtain ⟨rfl, ho⟩ := ha
      have hoff := windowReg_offset off ho
      simp only [State.hostWrite] at h
      generalize hw : windowReg off = wr at h hoff
      by_cases hf : s.status.fault = true
      · cases wr <;> simp only [State.writeWindow, unlessFaulted_true (s := s.respond .written) hf] at h <;>
          simp only [beq_iff_eq] at hoff
        case status => cases h; subst hoff; exact Or.inr (Or.inr (Or.inr (Or.inl ⟨v, rfl, rfl⟩)))
        case ctrl => cases h; subst hoff; exact Or.inr (Or.inr (Or.inr (Or.inr (Or.inl ⟨v, rfl, rfl⟩))))
        all_goals cases h; exact Or.inl ⟨_, rfl⟩
      · have hf : s.status.fault = false := by simpa using hf
        cases wr <;> simp only [State.writeWindow, unlessFaulted_false (s := s.respond .written) hf] at h <;>
          simp only [beq_iff_eq, decide_eq_true_eq] at hoff
        case wLo n => cases h; exact Or.inr (Or.inl ⟨off, v, n, _, rfl, ho, by omega, hf, rfl⟩)
        case wHi n => cases h; exact Or.inr (Or.inl ⟨off, v, n, _, rfl, ho, hoff, hf, rfl⟩)
        case flags => cases h; subst hoff; exact Or.inr (Or.inr (Or.inl ⟨v, rfl, hf, rfl⟩))
        case status => cases h; subst hoff; exact Or.inr (Or.inr (Or.inr (Or.inl ⟨v, rfl, rfl⟩)))
        case ctrl => cases h; subst hoff; exact Or.inr (Or.inr (Or.inr (Or.inr (Or.inl ⟨v, rfl, rfl⟩))))
        case cmd =>
          subst hoff
          refine Or.inr (Or.inr (Or.inr (Or.inr (Or.inr ⟨v, rfl, hf, ?_⟩))))
          rcases issueWord_cases (s.respond .written) v with ⟨r, hl, e⟩ | ⟨k, e⟩ <;> rw [e] at h <;> cases h
          · exact Or.inl ⟨r, hl, rfl⟩
          · exact Or.inr ⟨k, rfl⟩
        all_goals cases h; exact Or.inl ⟨_, rfl⟩

/-- Performing an input always answers a next state. -/
theorem perform_next (s : State) (inp : Input) : ∃ s', s.perform inp = .next s' := by
  cases inp with
  | reset => exact ⟨_, rfl⟩
  | access a =>
    simp only [State.perform, State.performAccess]
    split
    case isFalse => exact ⟨_, rfl⟩
    cases a with
    | read off w => exact ⟨_, rfl⟩
    | write off w v =>
      simp only [State.hostWrite]
      cases windowReg off <;> simp only [State.writeWindow, State.unlessFaulted] <;>
        first
          | exact ⟨_, rfl⟩
          | (split
             · exact ⟨_, rfl⟩
             · first
               | exact ⟨_, rfl⟩
               | (rcases issueWord_cases (s.respond .written) v with ⟨r, -, e⟩ | ⟨k, e⟩
                  · exact ⟨_, e⟩
                  · exact ⟨_, e⟩))

end Sys2Proof.Machine
end

