-- ==== Sys2Proof/Laws/Step.lean ====
section
/-! SUPPORT. What a step can do, said once. -/

namespace Sys2Proof.Machine

/-- Inversion of a step under any choice, the choice counter aside: the unit completes (or, with nothing in flight,
stays as it is), or the next input, which is not held, is performed. -/
theorem stepWith_cases {first : Nat → Bool} {s s' : State} (h : stepWith first s = .next s') :
    ∃ n, (s' = State.complete { s with turn := n } ∧
        (s.inFlight.isSome = true ∨ s.pending = [] ∨ ∃ inp rest, s.pending = inp :: rest ∧ s.holds inp = true)) ∨
      ∃ inp rest, s.pending = inp :: rest ∧ s.holds inp = false ∧
        (State.dropPending { s with turn := n } rest).perform inp = .next s' := by
  unfold stepWith at h
  split at h
  · rename_i hp
    cases h
    exact ⟨s.turn, Or.inl ⟨rfl, Or.inr (Or.inl hp)⟩⟩
  · rename_i inp rest hp
    split at h
    · rename_i hh
      cases h
      exact ⟨s.turn, Or.inl ⟨rfl, Or.inr (Or.inr ⟨inp, rest, hp, hh⟩)⟩⟩
    · rename_i hh
      have hh : s.holds inp = false := by simpa using hh
      split at h
      · rename_i hi
        split at h
        · cases h
          exact ⟨s.turn + 1, Or.inl ⟨rfl, Or.inl hi⟩⟩
        · exact ⟨s.turn + 1, Or.inr ⟨inp, rest, hp, hh, h⟩⟩
      · exact ⟨s.turn, Or.inr ⟨inp, rest, hp, hh, h⟩⟩

/-- A run of any machine that begins with a step to `s'` is the rest of the run from `s'`. -/
theorem coreRun_succ (M : Host.Core) {s s' : M.State} (h : M.step s = .next s') (k : Nat) :
    M.run (k + 1) s = M.run k s' := by simp only [Host.Core.run, h]

/-- A run that begins with a step to `s'` is the rest of the run from `s'`. -/
theorem run_succ {s s' : State} (h : step s = .next s') (k : Nat) : core.run (k + 1) s = core.run k s' :=
  coreRun_succ core h k

end Sys2Proof.Machine
end

