-- ==== Sys2Proof/Tests/Slice0.lean ====
section
/-! SUPPORT. The model's own tests: ill-formed commands, words written out from the spec's encodings, one small step per
test with its expected value from spec/95_test_vectors.md, and a witness for every statement with hypotheses. -/

namespace Sys2Proof.Tests

open Sys2Proof.Machine

/-! ### Helpers -/

/-- The reset state with some registers and FLAGS.C set. -/
def given (ws : List (Reg × Wide)) (c : Bool := false) : State :=
  { State.reset.applyWrites ws with flags := ⟨c, 0⟩ }

/-- What is read from the state after a command's issue and completion. -/
def after (i : Instr) (s : State) : Option State :=
  match exec i s with
  | .next t => some t.complete
  | .fault _ => none
  | .refused _ => none

/-- A register after a command. -/
def regAfter (i : Instr) (s : State) (n : Reg) : Option Wide := (after i s).map (·.readW n)

/-- FLAGS.C after a command. -/
def carryAfter (i : Instr) (s : State) : Option Bool := (after i s).map (·.flags.c)

/-- FLAGS.CMP after a command. -/
def cmpAfter (i : Instr) (s : State) : Option (BitVec 2) := (after i s).map (·.flags.cmp)

/-- STATUS.FAULT and STATUS.FCODE after a command. -/
def faultAfter (i : Instr) (s : State) : Option (Bool × BitVec 4) :=
  (after i s).map fun t => (t.status.fault, t.status.fcode)

/-- The largest wide value, `max` of spec/95_test_vectors.md. -/
def top : Wide := 0xFFFFFFFFFFFFFFFFFFFFFFFFFFFFFFFF

/-- The pattern `x` of spec/95_test_vectors.md. -/
def pat : Wide := 0x0123456789ABCDEFFEDCBA9876543210

/-! ### Ill-formed commands: RD = RE with two destinations (R60) -/

theorem test_wf_refuses_mulf : (Instr.mulf 1 1 2 3).wf = false := by decide
theorem test_wf_refuses_div64 : (Instr.div64 0 0 2 3).wf = false := by decide
theorem test_wf_refuses_div128 : (Instr.div128 7 7 2 3).wf = false := by decide
theorem test_wf_refuses_divf : (Instr.divf 4 4 0 1 2).wf = false := by decide
theorem test_wf_refuses_divw64 : (Instr.divw64 5 5 0 1 2 true).wf = false := by decide
theorem test_wf_admits_aliased_sources : (Instr.mulf 2 3 2 3).wf = true := by decide

/-! ### Words of spec/30_encoding.md, spec/40 to 43 and spec/95_test_vectors.md -/

theorem test_decode_add : decode 0x04028000 = .instr (.add 0 1 2) := by decide
theorem test_decode_adc : decode 0x09828000 = .instr (.adc 3 1 2) := by decide
theorem test_decode_sub : decode 0x0C028000 = .instr (.sub 0 1 2) := by decide
theorem test_decode_sbb : decode 0x11828000 = .instr (.sbb 3 1 2) := by decide
theorem test_decode_cmp : decode 0x14028000 = .instr (.cmp 1 2) := by decide
theorem test_decode_shl : decode 0x20028000 = .instr (.shl 0 1 2) := by decide
theorem test_decode_shr : decode 0x24028000 = .instr (.shr 0 1 2) := by decide
theorem test_decode_shli : decode 0x28020040 = .instr (.shli 0 1 64) := by decide
theorem test_decode_shri : decode 0x2C020001 = .instr (.shri 0 1 1) := by decide
theorem test_decode_clz : decode 0x30020000 = .instr (.clz 0 1) := by decide
theorem test_decode_mulf : decode 0x4014C000 = .instr (.mulf 0 1 2 3) := by decide
theorem test_decode_mul64 : decode 0x44028000 = .instr (.mul64 0 1 2) := by decide
theorem test_decode_div64 : decode 0x6014C000 = .instr (.div64 0 1 2 3) := by decide
theorem test_decode_div128 : decode 0x6414C000 = .instr (.div128 0 1 2 3) := by decide
theorem test_decode_divf : decode 0x6A528000 = .instr (.divf 4 5 0 1 2) := by decide
theorem test_decode_divw64_r : decode 0x6E528400 = .instr (.divw64 4 5 0 1 2 true) := by decide
theorem test_decode_divw64 : decode 0x6E528800 = .instr (.divw64 4 5 1 1 2 false) := by decide

theorem test_decode_reserved_zero : decode 0x00000000 = .illegal .reservedOp := by decide
theorem test_decode_re_nonzero : decode 0x04128000 = .illegal .nonzeroField := by decide
theorem test_decode_rsv_nonzero : decode 0x6E528200 = .illegal .nonzeroField := by decide
theorem test_decode_rnd_outside_divw64 : decode 0x6A528400 = .illegal .nonzeroField := by decide
theorem test_decode_upper_bit : decode 0x0000000104028000 = .illegal .upperBits := by decide
theorem test_decode_same_destination : decode 0x4094C000 = .illegal .sameDestination := by decide
theorem test_table_word : decodeTableWord 32 0x04028000 = some (.add 0 1 2) := by decide

/-- `DIVW64.R w4, w5, w0, w1, w2` assembles to 0x6E528400 (R87), and a `.R` elsewhere is rejected (R64). -/
theorem test_assemble :
    AsmLine.assemble ⟨.divw64, true, [.reg 4, .reg 5, .reg 0, .reg 1, .reg 2]⟩ = some 0x6E528400 ∧
      AsmLine.assemble ⟨.add, true, [.reg 0, .reg 1, .reg 2]⟩ = none ∧
      AsmLine.assemble ⟨.shli, false, [.reg 0, .reg 1, .imm 256]⟩ = none ∧
      AsmLine.assemble ⟨.clz, false, [.reg 8, .reg 1]⟩ = none := by decide

/-! ### One command each (spec/95_test_vectors.md 1 and 2) -/

theorem test_add_carries_between_limbs :
    regAfter (.add 0 1 2) (given [(1, 0xFFFFFFFFFFFFFFFF), (2, 1)]) 0 = some 0x10000000000000000 := by decide
theorem test_add_ignores_carry_in :
    regAfter (.add 0 1 2) (given [(1, 1), (2, 2)] true) 0 = some 3 ∧
      carryAfter (.add 0 1 2) (given [(1, 1), (2, 2)] true) = some false := by decide
theorem test_adc_largest_sum :
    regAfter (.adc 0 1 2) (given [(1, top), (2, top)] true) 0 = some top ∧
      carryAfter (.adc 0 1 2) (given [(1, top), (2, top)] true) = some true := by decide
theorem test_adc_without_carry : regAfter (.adc 0 1 2) (given [(1, 5), (2, 6)]) 0 = some 11 := by decide
theorem test_sub_borrows_between_limbs :
    regAfter (.sub 0 1 2) (given [(1, 0x10000000000000000), (2, 1)]) 0 = some 0xFFFFFFFFFFFFFFFF := by decide
theorem test_sub_wraps :
    regAfter (.sub 0 1 2) (given [(1, 0), (2, 1)]) 0 = some top ∧
      carryAfter (.sub 0 1 2) (given [(1, 0), (2, 1)]) = some true := by decide
theorem test_sbb_largest_subtrahend :
    regAfter (.sbb 0 1 2) (given [(1, 0), (2, top)] true) 0 = some 0 ∧
      carryAfter (.sbb 0 1 2) (given [(1, 0), (2, top)] true) = some true := by decide
theorem test_sbb_without_borrow :
    regAfter (.sbb 3 1 2) (given [(1, 5), (2, 4)] true) 3 = some 0 ∧
      carryAfter (.sbb 3 1 2) (given [(1, 5), (2, 4)] true) = some false := by decide
theorem test_cmp_high_limb_decides :
    cmpAfter (.cmp 1 2) (given [(1, 0x10000000000000000), (2, 0xFFFFFFFFFFFFFFFF)]) = some 0b01 := by decide
theorem test_cmp_low_limb_decides :
    cmpAfter (.cmp 1 2) (given [(1, 0x50000000000000001), (2, 0x50000000000000002)]) = some 0b11 := by decide
theorem test_shl_65 :
    regAfter (.shl 0 1 2) (given [(1, pat), (2, 65)]) 0 = some 0xFDB97530ECA864200000000000000000 := by decide
theorem test_shl_huge_amount :
    regAfter (.shl 0 1 2) (given [(1, pat), (2, 0x10000000000000000)]) 0 = some 0 := by decide
theorem test_shr_63 :
    regAfter (.shr 0 1 2) (given [(1, pat), (2, 63)]) 0 = some 0x02468ACF13579BDF := by decide
theorem test_shr_127 : regAfter (.shr 0 1 2) (given [(1, top), (2, 127)]) 0 = some 1 := by decide
theorem test_shli_64_fills_with_zeros :
    regAfter (.shli 0 0 64) (given [(0, pat)]) 0 = some 0xFEDCBA98765432100000000000000000 := by decide
theorem test_shli_255 : regAfter (.shli 0 1 255) (given [(1, pat)]) 0 = some 0 := by decide
theorem test_shri_1 :
    regAfter (.shri 0 1 1) (given [(1, pat)]) 0 = some 0x0091A2B3C4D5E6F7FF6E5D4C3B2A1908 := by decide
theorem test_shri_65 : regAfter (.shri 0 1 65) (given [(1, pat)]) 0 = some 0x0091A2B3C4D5E6F7 := by decide
theorem test_clz_zero : regAfter (.clz 0 1) (given []) 0 = some 128 := by decide
theorem test_clz_high_limb :
    regAfter (.clz 0 1) (given [(1, pat)]) 0 = some 7 ∧
      regAfter (.clz 0 1) (given [(1, 0xFFFFFFFFFFFFFFFF)]) 0 = some 64 := by decide
theorem test_mulf_square :
    regAfter (.mulf 0 1 2 2) (given [(2, pat)]) 0 = some 0x422871B7939F74ACDEEC6CD7A44A4100 ∧
      regAfter (.mulf 0 1 2 2) (given [(2, pat)]) 1 = some 0x00014B66DC33F6ACDEE9D609EBE253A6 := by decide
theorem test_mulf_destinations_alias_sources :
    regAfter (.mulf 2 3 2 3) (given [(2, 0xFFFFFFFFFFFFFFFF), (3, 0xFFFFFFFFFFFFFFFF)]) 2 =
        some 0xFFFFFFFFFFFFFFFE0000000000000001 ∧
      regAfter (.mulf 2 3 2 3) (given [(2, 0xFFFFFFFFFFFFFFFF), (3, 0xFFFFFFFFFFFFFFFF)]) 3 = some 0 := by decide
theorem test_mul64_ignores_high_limb :
    regAfter (.mul64 0 1 2) (given [(1, pat), (2, 0x50000000000000003)]) 0 =
      some 0x0369D0369D0369CFFC962FC962FC9630 := by decide
theorem test_mul64_truncates :
    regAfter (.mul64 0 1 2) (given [(1, top), (2, 0xFFFFFFFFFFFFFFFF)]) 0 =
      some 0xFFFFFFFFFFFFFFFF0000000000000001 := by decide
theorem test_div64_ignores_high_limb :
    regAfter (.div64 0 1 2 3) (given [(2, 100), (3, 0x10000000000000007)]) 0 = some 14 ∧
      regAfter (.div64 0 1 2 3) (given [(2, 100), (3, 0x10000000000000007)]) 1 = some 2 := by decide
theorem test_div64_zero_low_limb_faults :
    faultAfter (.div64 0 1 2 3) (given [(2, 100), (3, 0x10000000000000000)]) = some (true, 1) := by decide
theorem test_div128_third :
    regAfter (.div128 0 1 2 3) (given [(2, 0x80000000000000000000000000000000), (3, 3)]) 0 =
        some 0x2AAAAAAAAAAAAAAAAAAAAAAAAAAAAAAA ∧
      regAfter (.div128 0 1 2 3) (given [(2, 0x80000000000000000000000000000000), (3, 3)]) 1 = some 2 := by decide
theorem test_div128_zero_faults : faultAfter (.div128 0 1 2 3) (given [(2, 5)]) = some (true, 1) := by decide

/-- The source's divFull vector (S2). -/
theorem test_divf_source_vector :
    (after (.divf 4 5 0 1 2)
        (given [(0, 0x001AE093566B591F79DA7CFC64734FC8), (1, 0xEEAF8AFEAFE15BF3A168B431EA4CBF25),
          (2, 0x159B7ADDC721D10F64611073AD67885C)])).map (fun t => (t.readW 4, t.readW 5)) =
      some (0x013E6FD8CEF9597771E0EF1E6710EA31, 0x1011ED7A4D74399338DB746F8D178D89) := by decide
theorem test_divf_faults :
    faultAfter (.divf 4 5 0 1 2) (given [(0, 5), (2, 5)]) = some (true, 2) ∧
      faultAfter (.divf 4 5 0 1 2) (given [(1, 1)]) = some (true, 1) := by decide
theorem test_divw64_rounds_half_up :
    regAfter (.divw64 4 5 0 1 2 true) (given [(1, 7), (2, 3)]) 4 = some 2 ∧
      regAfter (.divw64 4 5 0 1 2 true) (given [(1, 8), (2, 3)]) 4 = some 3 ∧
      regAfter (.divw64 4 5 0 1 2 false) (given [(1, 8), (2, 3)]) 4 = some 2 := by decide
theorem test_divw64_rounding_wraps :
    regAfter (.divw64 4 5 0 1 2 true) (given [(0, 1), (1, top), (2, 2)]) 4 = some 0 ∧
      regAfter (.divw64 4 5 0 1 2 true) (given [(0, 1), (1, top), (2, 2)]) 5 = some 1 := by decide

/-! ### The window and the step -/

/-- STATUS reads 0x16 in P6 and 0x34 in P7 of spec/95_test_vectors.md. -/
theorem test_status_word :
    Status.toWord ⟨false, true, true, 1⟩ = 0x16 ∧ Status.toWord ⟨false, false, true, 3⟩ = 0x34 := by decide

/-- A busy state: `ADD w0, w1, w2` is in flight with W1 = 1 and W2 = 2, and the given inputs are pending. -/
def busyWith (ins : List Input) : State :=
  { given [(1, 1), (2, 2)] with
    status := ⟨true, false, false, 0⟩
    inFlight := some { op := .add, regWrites := [(0, 3)], carryWrite := some false, cmpWrite := none }
    pending := ins }

/-- A fault state: DIVIDE_BY_ZERO, with the FAULT interrupt enabled and the given inputs pending. -/
def faultedWith (ins : List Input) : State :=
  { given [(1, 7)] with status := ⟨false, true, true, 1⟩, ctrl := ⟨false, true⟩, pending := ins }

/-- The state after a step. -/
def stepped (s : State) : Option State :=
  match step s with
  | .next t => some t
  | .fault _ => none
  | .refused _ => none

/-- A word placed after reset is issued by the very next step. -/
theorem test_placed_word_runs :
    (stepped (State.reset.withFetchWord 32 0x04028000)).map (fun t => (t.inFlight.map (·.op), t.cmd, t.status.busy)) =
      some (some .add, 0x04028000, true) := by decide

/-- A held read waits for the completion and a STATUS write does not wait in the fault state (R112, R38). -/
theorem test_step_held_read :
    (stepped (busyWith [.access (.read 0x00 64)])).map (fun t => (t.readW 0, t.pending.length, t.status.done)) =
      some (3, 1, true) := by decide

theorem test_step_fault_state_ignores_command :
    (stepped (faultedWith [.access (.write 0x80 64 0x05824000)])).map (fun t => (t.cmd, t.inFlight, t.readW 3)) =
      some (0, none, 0) := by decide

/-- Two runs that differ in an ignored write and a bus error only have the same outcome, the value of the one read
(R40, R116). -/
theorem test_outcome_has_read_values_only :
    runOutcome 3 { given [(1, 1)] with
        pending := [.access (.write 0xA0 64 9), .access (.read 0x10 32), .access (.read 0x10 64)] } =
      runOutcome 1 { given [(1, 1)] with pending := [.access (.read 0x10 64)] } ∧
    (runOutcome 1 { given [(1, 1)] with pending := [.access (.read 0x10 64)] } =
      .ended ⟨(given [(1, 1)]).w, ⟨false, 0⟩, false, [1]⟩) := by
  decide

theorem test_reset_reads :
    State.reset.hostRead 0xA0 = 0x0000000000010128 ∧ State.reset.hostRead 0x88 = 0 ∧ State.reset.irq = false := by
  decide

/-! ### Witnesses: states and operands that meet the hypotheses of each statement -/

/-- An idle state: W1 = 1, and the given inputs are pending. -/
def idleWith (ins : List Input) : State := { given [(1, 1)] with pending := ins }

theorem inv_idleWith (ins : List Input) : (idleWith ins).Inv := by
  simp [State.Inv, idleWith, given, applyWrites_cons, State.reset]

theorem inv_busyWith (ins : List Input) : (busyWith ins).Inv := by
  simp [State.Inv, busyWith, InFlight.Legal, writesCarry, registersWritten]

theorem inv_faultedWith (ins : List Input) : (faultedWith ins).Inv := by
  refine ⟨by simp [faultedWith, given, applyWrites_cons, State.reset], by simp [faultedWith], by simp [faultedWith],
    fun _ => ⟨.divideByZero, rfl⟩, ?_⟩
  simp [faultedWith, given, applyWrites_cons, State.reset]

theorem witness_DecodeOfEncodeIsTheCommand :
    (Instr.divw64 4 5 0 1 2 true).wf = true ∧ (Instr.shli 7 7 255).wf = true := by decide
theorem witness_DecodedValueIsTheCommandsWord : decode 0x6E528400 = .instr (.divw64 4 5 0 1 2 true) := by decide
theorem witness_WordSelectsMnemonicByMaskAndMatch :
    (0x4014C000 : Limb).extractLsb' 0 32 &&& Opcode.mulf.mask = Opcode.mulf.pattern ∧
      (0x4014C000 : Limb).extractLsb' 23 3 ≠ (0x4014C000 : Limb).extractLsb' 20 3 := by decide
theorem witness_IllegalWordsAreExactlyTheFourConditions :
    State.reset.accepts = true ∧ decode 0xFFFFFFFF00000000 = .illegal .upperBits ∧
      decode 0xFC000000 = .illegal .reservedOp ∧ decode 0x14828000 = .illegal .nonzeroField ∧
      decode 0x4004C000 = .illegal .sameDestination := by decide
theorem witness_AssemblerEmitsOnlyLegalWords :
    (Instr.divf 4 5 0 1 2).wf = true ∧
      AsmLine.assemble ⟨.divf, false, [.reg 4, .reg 5, .reg 0, .reg 1, .reg 2]⟩ = some 0x6A528000 := by decide
theorem witness_AddCompletesWithSumAndCarry : (given [(1, top), (2, 1)]).accepts = true := by decide
theorem witness_AdcCompletesWithSumAndCarry : (given [(1, top), (2, top)] true).accepts = true := by decide
theorem witness_SubCompletesWithDifferenceAndBorrow : (given [(2, 1)]).accepts = true := by decide
theorem witness_SbbCompletesWithDifferenceAndBorrow : (given [(2, top)] true).accepts = true := by decide
theorem witness_CmpCompletesWithUnsignedOrder : (given [(1, 1), (2, 2)]).accepts = true := by decide
theorem witness_RegisterShiftsComplete :
    (given [(1, pat), (2, 127)]).accepts = true ∧ (given [(1, pat), (2, 128)]).accepts = true := by decide
theorem witness_ImmediateShiftsComplete : (given [(1, pat)]).accepts = true := by decide
theorem witness_ShiftsMoveBitsAndEnterZeros : 0 < 128 ∧ 127 < 128 := by decide
theorem witness_LimbShiftsEqualWholeShifts : 0 < 128 ∧ 63 < 128 ∧ 64 < 128 ∧ 127 < 128 := by decide
theorem witness_ClzCompletesWithLeadingZeroCount : (given [(1, 1)]).accepts = true := by decide
theorem witness_MulfCompletesWithFullProduct :
    (given [(2, top), (3, top)]).accepts = true ∧ (0 : Reg) ≠ 1 := by decide
theorem witness_Mul64CompletesWithTruncatedProduct : (given [(1, top), (2, 2)]).accepts = true := by decide
theorem witness_Div64DividesOrFaults :
    (given [(2, 100), (3, 0x10000000000000000)]).accepts = true ∧ (0 : Reg) ≠ 1 ∧
      ((given [(2, 100), (3, 0x10000000000000000)]).readW 3).toNat % 2 ^ 64 = 0 ∧
      ((given [(2, 100), (3, 1)]).readW 3).toNat % 2 ^ 64 ≠ 0 := by decide
theorem witness_Div128DividesOrFaults :
    (given [(2, 5)]).accepts = true ∧ (0 : Reg) ≠ 1 ∧ (given [(2, 5)]).readW 3 = 0 ∧
      (given [(2, 5), (3, 1)]).readW 3 ≠ 0 := by decide
theorem witness_DivfDividesOrFaults :
    (given [(0, 5), (2, 5)]).accepts = true ∧ (4 : Reg) ≠ 5 ∧ (given []).readW 2 = 0 ∧
      (given [(0, 5), (2, 5)]).readW 2 ≠ 0 ∧
      ((given [(0, 5), (2, 5)]).readW 2).toNat ≤ ((given [(0, 5), (2, 5)]).readW 0).toNat ∧
      ((given [(0, 4), (2, 5)]).readW 0).toNat < ((given [(0, 4), (2, 5)]).readW 2).toNat := by decide
theorem witness_Divw64DividesRoundsOrFaults :
    (given [(1, 8), (2, 3)]).accepts = true ∧ (4 : Reg) ≠ 5 ∧
      ((given [(2, 0x10000000000000000)]).readW 2).toNat % 2 ^ 64 = 0 ∧
      ((given [(1, 8), (2, 3)]).readW 2).toNat % 2 ^ 64 ≠ 0 := by decide
theorem witness_EqualDestinationsFaultFirst : (given [(2, 0)]).accepts = true := by decide
theorem witness_DivideFaultsComeOnlyFromDivisions :
    (given [(0, 5), (2, 5)]).accepts = true ∧ (Instr.divf 4 5 0 1 2).wf = true ∧
      TakesFault (.divf 4 5 0 1 2) (given [(0, 5), (2, 5)]) 2 ∧ TakesFault (.div64 0 1 2 3) (given []) 1 :=
  ⟨by decide, by decide, rfl, rfl⟩
theorem witness_RestoringDivisionIsFloorDivision :
    0 < 1 ∧ 2 ^ 256 - 1 < 2 ^ 256 ∧ 2 ^ 128 - 1 < 2 ^ 128 ∧ 4 < 5 ∧ (1 : Wide) ≠ 0 := by decide
theorem witness_StepRunsTheDecodedCommand :
    (State.reset.withFetchWord 32 0x04028000).accepts = true ∧
      (State.reset.withFetchWord 32 0x04028000).inFlight = none ∧
      (State.reset.withFetchWord 32 0x04028000).pending = [.access (.write 0x80 64 0x04028000)] ∧
      decode 0x04028000 = .instr (.add 0 1 2) ∧ (busyWith []).inFlight.isSome = true ∧ (busyWith []).pending = [] ∧
      State.reset.inFlight = none ∧ State.reset.pending = [] := by decide
theorem witness_IssueLaunchesOrFaults : State.reset.accepts = true := by decide
theorem witness_CmdReadsBackAcceptedWord :
    State.reset.accepts = true ∧ (∃ t, State.reset.hostWrite 0x80 0x04028000 = .next t) ∧
      ∃ t, State.reset.hostWrite 0x80 0 = .next t := ⟨by decide, ⟨_, rfl⟩, ⟨_, rfl⟩⟩
theorem witness_CompletionPerformsTheRecord :
    ∃ r : InFlight, (busyWith []).inFlight = some r ∧ r.Legal ∧ (0, 3) ∈ r.regWrites ∧
      (1 : Reg) ∉ r.regWrites.map Prod.fst ∧ r.carryWrite = some false ∧ r.cmpWrite = none :=
  ⟨_, rfl, (inv_busyWith []).2.2.2.2 _ rfl, by decide, by decide, rfl, rfl⟩
theorem witness_CompletionPerformsTheRecord_cmp :
    ∃ r : InFlight, r.Legal ∧ r.carryWrite = none ∧ r.cmpWrite = some 0b11 :=
  ⟨⟨.cmp, [], none, some 0b11⟩, by simp [InFlight.Legal, writesCarry, registersWritten], rfl, rfl⟩
theorem witness_OnlyAdderAndCmpWriteFlags :
    State.reset.accepts = true ∧ State.reset.inFlight = none ∧
      (∃ t, exec (.adc 0 1 2) (given [(1, top), (2, 1)]) = .next t ∧ t.complete.flags.c ≠ false) ∧
      ∃ t, exec (.cmp 0 1) (given [(1, 1)]) = .next t ∧ t.complete.flags.cmp ≠ 0 :=
  ⟨by decide, rfl, ⟨_, rfl, by decide⟩, ⟨_, rfl, by decide⟩⟩
theorem witness_BusyHoldsExactlyWCmdAndFlags :
    (HostAccess.read 0x78 64).admitted = true ∧ (HostAccess.read 0x80 64).admitted = true ∧
      (HostAccess.write 0x90 64 1).admitted = true ∧ (busyWith [.access (.read 0x78 64)]).inFlight.isSome = true ∧
      (busyWith [.access (.read 0x78 64)]).holds (.access (.read 0x78 64)) = true ∧
      (busyWith []).holds (.access (.read 0x88 64)) = false := by decide
theorem witness_CompletionAndDoneClearInEitherOrder :
    (busyWith [.access (.write 0x88 64 2)]).inFlight.isSome = true ∧ (2 : Limb).getLsbD 1 = true ∧
      (busyWith [.access (.write 0x88 64 2)]).pending = [.access (.write 0x88 64 2)] := by decide
theorem witness_StepIsAMove : (busyWith []).Inv ∧ step (busyWith []) = .next (busyWith []).complete :=
  ⟨inv_busyWith [], rfl⟩
theorem witness_EveryMoveIsAStepOfSomeChoice :
    (busyWith []).Inv ∧ Move (busyWith []) (busyWith []).complete ∧ (idleWith []).Inv ∧ Move (idleWith []) (idleWith []) :=
  ⟨inv_busyWith [], .inl ⟨rfl, rfl⟩, inv_idleWith [], .inr (.inr ⟨rfl, rfl, rfl⟩)⟩
theorem witness_StepKeepsTheInvariant : (busyWith []).Inv ∧ step (busyWith []) = .next (busyWith []).complete :=
  ⟨inv_busyWith [], rfl⟩
theorem witness_CommandsInFlightEnd :
    ∃ r, (busyWith [.access (.read 0x00 64)]).Inv ∧ (busyWith [.access (.read 0x00 64)]).inFlight = some r ∧
      step (busyWith [.access (.read 0x00 64)]) = .next (busyWith [.access (.read 0x00 64)]).complete :=
  ⟨_, inv_busyWith _, rfl, rfl⟩
theorem witness_CommandsInFlightEnd_reset :
    ∃ r, (busyWith [.reset]).Inv ∧ (busyWith [.reset]).inFlight = some r ∧ (busyWith [.reset]).pending = [.reset] :=
  ⟨_, inv_busyWith _, rfl, rfl⟩
theorem witness_RegistersChangeOnlyByCompletionHostOrReset :
    step (busyWith []) = .next (busyWith []).complete ∧ (busyWith []).complete.w ≠ (busyWith []).w :=
  ⟨rfl, by decide⟩
theorem witness_RegistersChangeOnlyByCompletionHostOrReset_host :
    ∃ t, step { State.reset with pending := [.access (.write 0x78 64 1)] } = .next t ∧ t.w ≠ State.reset.w :=
  ⟨_, rfl, by decide⟩
theorem witness_RegistersChangeOnlyByCompletionHostOrReset_reset :
    ∃ t, step (faultedWith [.reset]) = .next t ∧ t.w ≠ (faultedWith [.reset]).w := ⟨_, rfl, by decide⟩
theorem witness_DoneIsSetOnlyByCompletion :
    step (busyWith []) = .next (busyWith []).complete ∧ (busyWith []).status.done = false ∧
      (busyWith []).complete.status.done = true := ⟨rfl, rfl, rfl⟩
theorem witness_FaultIsEnteredOnlyAtIssue :
    (idleWith [.access (.write 0x80 64 0x4094C000)]).Inv ∧
      (∃ t, step (idleWith [.access (.write 0x80 64 0x4094C000)]) = .next t ∧
        t.status.fault = true) ∧ (idleWith [.access (.write 0x80 64 0x4094C000)]).status.fault = false :=
  ⟨inv_idleWith _, ⟨_, rfl, rfl⟩, rfl⟩
theorem witness_FaultStateLastsUntilReset :
    (faultedWith [.access (.write 0x80 64 0x04028000)]).Inv ∧
      (faultedWith [.access (.write 0x80 64 0x04028000)]).status.fault = true ∧
      (∃ t, step (faultedWith [.access (.write 0x80 64 0x04028000)]) = .next t) ∧
      ∀ rest, (faultedWith [.access (.write 0x80 64 0x04028000)]).pending ≠ .reset :: rest :=
  ⟨inv_faultedWith _, rfl, ⟨_, rfl⟩, by simp [faultedWith]⟩
theorem witness_FaultStateAccesses : (faultedWith []).Inv ∧ (faultedWith []).status.fault = true :=
  ⟨inv_faultedWith _, rfl⟩
theorem witness_WindowMap : (0xA8 : Offset).toNat = 0xA8 ∧ windowReg 0x78 = .wHi 7 ∧ windowReg 0xF8 = .reserved := by
  decide
theorem witness_RegisterWritesAreReadBack :
    (given [(1, pat)]).status.fault = false ∧ (given [(1, pat)]).readW 1 ≠ 0 := by decide
theorem witness_FlagsAndCtrlWritesAreReadBack : State.reset.status.fault = false := by decide
theorem witness_IdAndReservedOffsets :
    0xA8 ≤ (0xA8 : Offset).toNat ∧ 0xA8 ≤ (0xF8 : Offset).toNat ∧
      0xA0 ≤ (HostAccess.read 0xA0 64).off.toNat := by decide
theorem witness_BusErrorChangesNothing :
    (HostAccess.read 0x10 32).width ≠ 64 ∧ (HostAccess.write 0x84 64 1).off.toNat % 8 ≠ 0 := by decide
theorem witness_ReadsAreFreeOfEffectsAndWritesIdempotent :
    (0x88 : Offset).toNat % 8 = 0 ∧ (0x78 : Offset).toNat < 0x80 ∧
      (∃ t, State.reset.hostWrite 0x78 1 = .next t) ∧ (∃ t, State.reset.hostWrite 0x90 7 = .next t) ∧
      ∃ t, State.reset.hostWrite 0x98 3 = .next t := ⟨by decide, by decide, ⟨_, rfl⟩, ⟨_, rfl⟩, ⟨_, rfl⟩⟩
theorem witness_RegistersAreLittleEndianInTheWindow :
    (0xF8 : Offset).toNat % 8 = 0 ∧ 7 < 8 ∧ 15 < 16 := by decide
theorem witness_IrqIsTheEnabledLevel :
    (faultedWith []).Inv ∧ (faultedWith []).status.fault = true ∧
      (∃ t, step (faultedWith []) = .next t ∧ t.ctrl.faultIE = true) ∧
      ∀ rest, (faultedWith []).pending ≠ .reset :: rest :=
  ⟨inv_faultedWith _, rfl, ⟨_, rfl, rfl⟩, by simp [faultedWith]⟩
theorem witness_RunThatFaultsNeverEndsNormally :
    (idleWith [.access (.write 0x80 64 0)]).Inv ∧ 1 ≤ 2 ∧
      ∃ t, core.run 1 (idleWith [.access (.write 0x80 64 0)]) = .next t ∧ t.status.fault = true :=
  ⟨inv_idleWith _, by decide, ⟨_, rfl, rfl⟩⟩
theorem witness_RunThatFaultsNeverEndsNormally_ended :
    runOutcome 1 (idleWith [.access (.read 0x10 64)]) =
      .ended ⟨(idleWith []).w, ⟨false, 0⟩, false, [1]⟩ := rfl
theorem witness_RunThatFaultsNeverEndsNormally_reaches :
    (idleWith [.access (.read 0x10 64)]).Inv ∧ 1 ≤ 2 ∧
      (∃ t, core.run 1 (idleWith [.access (.read 0x10 64)]) = .next t ∧ t.pending = [] ∧ t.status.busy = false) ∧
      ∀ i ≤ 1, ∀ u : State, core.run i (idleWith [.access (.read 0x10 64)]) = .next u → u.status.fault = false := by
  refine ⟨inv_idleWith _, by decide, ⟨_, rfl, rfl, rfl⟩, ?_⟩
  intro i hi u h
  rcases Nat.le_one_iff_eq_zero_or_eq_one.1 hi with rfl | rfl <;> cases h <;> rfl
/-- A write of one limb leaves the other (R41: 'the new limb and the old limb'). -/
theorem test_limb_write_keeps_other_limb :
    (match (given [(1, pat)]).hostWrite 0x10 5 with
      | .next t => some (t.readW 1)
      | .fault _ => none
      | .refused _ => none) = some 0x0123456789ABCDEF0000000000000005 := by decide
theorem witness_MovAndZero : (given [(1, pat)]).accepts = true := by decide
theorem witness_WideAddAndSub :
    (given [(0, top), (2, 1)]).accepts = true ∧ (4 : Reg) ≠ 1 ∧ (4 : Reg) ≠ 3 ∧ (4 : Reg) ≠ 5 := by decide
theorem witness_NormSetsTheTopBit :
    (given [(0, 0x1234)]).accepts = true ∧ (1 : Reg) ≠ 0 ∧ (2 : Reg) ≠ 1 ∧ (given [(0, 0x1234)]).readW 0 ≠ 0 := by
  decide

end Sys2Proof.Tests
end

section
/-! SUPPORT. The decoder, said once: when a CMD value is ILLEGAL, in terms of the value's own bits (spec/30_encoding.md
R59 to R61). -/

namespace Sys2Proof

/-! ### A word's bits are the value's -/

/-- The command word is the low half of the value, so a field of the word is the same field of the value (R50). -/
theorem extractLsb'_commandWord (v : Limb) {lo n : Nat} (h : lo + n ≤ 32) :
    (commandWord v).extractLsb' lo n = v.extractLsb' lo n := by
  apply BitVec.eq_of_getLsbD_eq
  intro i hi
  have : lo + i < 32 := by omega
  simp [commandWord, this]

theorem getLsbD_commandWord (v : Limb) {k : Nat} (h : k < 32) : (commandWord v).getLsbD k = v.getLsbD k := by
  simp [commandWord, h]

/-- A register field of the word is 0 exactly when its bits of the value are. -/
theorem regField_commandWord_ne_zero (v : Limb) {lo : Nat} (h : lo + 3 ≤ 32) :
    regField (commandWord v) lo ≠ 0 ↔ v.extractLsb' lo 3 ≠ 0#3 := by
  rw [regField, extractLsb'_commandWord v h]
  exact not_congr (BitVec.toFin_inj (y := 0#3))

theorem regField_commandWord_eq (v : Limb) {lo lo' : Nat} (h : lo + 3 ≤ 32) (h' : lo' + 3 ≤ 32) :
    regField (commandWord v) lo = regField (commandWord v) lo' ↔ v.extractLsb' lo 3 = v.extractLsb' lo' 3 := by
  rw [regField, regField, BitVec.toFin_inj, extractLsb'_commandWord v h, extractLsb'_commandWord v h']

/-! ### R61's points, one by one -/

/-- Some field that the row marks 0, or RSV, is not 0 (R59, R61 point 3). -/
theorem unusedZero_eq_false_iff (f : Fields) (u : FieldUse) :
    f.unusedZero u = false ↔
      (u.rd = false ∧ f.rd ≠ 0) ∨ (u.re = false ∧ f.re ≠ 0) ∨ (u.ra = false ∧ f.ra ≠ 0) ∨
        (u.rb = false ∧ f.rb ≠ 0) ∨ (u.rc = false ∧ f.rc ≠ 0) ∨ (u.rnd = false ∧ f.rnd = true) ∨
        f.rsv ≠ 0 ∨ (u.imm = false ∧ f.imm ≠ 0) := by
  simp only [Fields.unusedZero, Bool.and_eq_false_iff, Bool.or_eq_false_iff, Bool.not_eq_false', beq_eq_false_iff_ne,
    or_assoc]

/-- Point 3 of R61 in the value's own bits. -/
theorem unusedZero_commandWord_eq_false_iff (v : Limb) (u : FieldUse) :
    (unpack (commandWord v)).unusedZero u = false ↔
      (u.rd = false ∧ v.extractLsb' 23 3 ≠ 0#3) ∨ (u.re = false ∧ v.extractLsb' 20 3 ≠ 0#3) ∨
        (u.ra = false ∧ v.extractLsb' 17 3 ≠ 0#3) ∨ (u.rb = false ∧ v.extractLsb' 14 3 ≠ 0#3) ∨
        (u.rc = false ∧ v.extractLsb' 11 3 ≠ 0#3) ∨ (u.rnd = false ∧ v.getLsbD 10 = true) ∨
        v.extractLsb' 8 2 ≠ 0#2 ∨ (u.imm = false ∧ v.extractLsb' 0 8 ≠ 0#8) := by
  have hreg := fun lo (h : lo + 3 ≤ 32) => regField_commandWord_ne_zero v h
  rw [unusedZero_eq_false_iff]
  simp only [unpack, hreg 23 (by decide), hreg 20 (by decide), hreg 17 (by decide), hreg 14 (by decide),
    hreg 11 (by decide), getLsbD_commandWord v (by decide : 10 < 32),
    extractLsb'_commandWord v (by decide : 8 + 2 ≤ 32), extractLsb'_commandWord v (by decide : 0 + 8 ≤ 32)]
  rfl

/-- Only a two-destination opcode can give a command that is not well formed, and RD = RE is why (R60). -/
theorem toInstr_wf_eq_false_iff (f : Fields) (o : Opcode) :
    (f.toInstr o).wf = false ↔ o ∈ [Opcode.mulf, .div64, .div128, .divf, .divw64] ∧ f.rd = f.re := by
  cases o <;> simp [Fields.toInstr, Instr.wf, Instr.destinationPair]

/-- The decoder refuses a value on exactly four conditions (R61). -/
theorem decode_illegal_iff (v : Limb) :
    (∃ why, decode v = .illegal why) ↔
      v.extractLsb' 32 32 ≠ 0#32 ∨ Opcode.ofBits (unpack (commandWord v)).op = none ∨
        (∃ o, Opcode.ofBits (unpack (commandWord v)).op = some o ∧
          (unpack (commandWord v)).unusedZero o.uses = false) ∨
        ∃ o, Opcode.ofBits (unpack (commandWord v)).op = some o ∧
          ((unpack (commandWord v)).toInstr o).wf = false := by
  simp only [decode]
  by_cases hu : v.extractLsb' 32 32 = 0#32
  · cases ho : Opcode.ofBits (unpack (commandWord v)).op with
    | none => simp [hu]
    | some o =>
      cases hz : (unpack (commandWord v)).unusedZero o.uses with
      | false => simp [hu, hz]
      | true => cases hw : ((unpack (commandWord v)).toInstr o).wf <;> simp [hu, hz, hw]
  · simp [hu]

end Sys2Proof
end

section
/-! SUPPORT. The window, said once: what each offset reads, what a write there does, and what is held
(spec/20_memory.md R36, R37; spec/70_reset_and_hazards.md R112). -/

namespace Sys2Proof.Machine

/-! ### The map -/

theorem windowReg_wLo : ∀ n : Reg, windowReg (BitVec.ofNat 8 (0x10 * n.val)) = .wLo n := by decide

theorem windowReg_wHi : ∀ n : Reg, windowReg (BitVec.ofNat 8 (0x10 * n.val + 8)) = .wHi n := by decide

theorem windowReg_reserved : ∀ off : Offset, 0xA8 ≤ off.toNat → windowReg off = .reserved := by decide

/-- ID and everything above it is outside the interlock. -/
theorem heldWhileBusy_of_id_le :
    ∀ off : Offset, 0xA0 ≤ off.toNat → (windowReg off).heldWhileBusy = false := by decide

/-! ### Reads -/

@[simp] theorem hostRead_wLo (s : State) (n : Reg) :
    s.hostRead (BitVec.ofNat 8 (0x10 * n.val)) = loLimb (s.readW n) := by
  rw [State.hostRead, windowReg_wLo]; rfl

@[simp] theorem hostRead_wHi (s : State) (n : Reg) :
    s.hostRead (BitVec.ofNat 8 (0x10 * n.val + 8)) = hiLimb (s.readW n) := by
  rw [State.hostRead, windowReg_wHi]; rfl

theorem hostRead_cmd (s : State) : s.hostRead 0x80 = s.cmd.setWidth 64 := by
  rw [State.hostRead, windowReg_cmd]; rfl

theorem hostRead_status (s : State) : s.hostRead 0x88 = s.status.toWord := by
  rw [State.hostRead, windowReg_status]; rfl

theorem hostRead_flags (s : State) : s.hostRead 0x90 = s.flags.toWord := by
  rw [State.hostRead, windowReg_flags]; rfl

theorem hostRead_ctrl (s : State) : s.hostRead 0x98 = s.ctrl.toWord := by
  rw [State.hostRead, windowReg_ctrl]; rfl

theorem hostRead_id (s : State) : s.hostRead 0xA0 = 0x0000000000010128 := by
  rw [State.hostRead, windowReg_id]; rfl

theorem hostRead_reserved (s : State) {off : Offset} (h : 0xA8 ≤ off.toNat) : s.hostRead off = 0 := by
  rw [State.hostRead, windowReg_reserved off h]; rfl

/-! ### Writes -/

theorem hostWrite_wLo {s : State} (h : s.status.fault = false) (n : Reg) (v : Limb) :
    s.hostWrite (BitVec.ofNat 8 (0x10 * n.val)) v = .next (s.writeLo n v) := by
  rw [State.hostWrite, windowReg_wLo]; exact unlessFaulted_false h _

theorem hostWrite_wHi {s : State} (h : s.status.fault = false) (n : Reg) (v : Limb) :
    s.hostWrite (BitVec.ofNat 8 (0x10 * n.val + 8)) v = .next (s.writeHi n v) := by
  rw [State.hostWrite, windowReg_wHi]; exact unlessFaulted_false h _

theorem hostWrite_id (s : State) (v : Limb) : s.hostWrite 0xA0 v = .next s := by
  rw [State.hostWrite, windowReg_id]; rfl

theorem hostWrite_reserved (s : State) {off : Offset} (h : 0xA8 ≤ off.toNat) (v : Limb) :
    s.hostWrite off v = .next s := by
  rw [State.hostWrite, windowReg_reserved off h]; rfl

/-! ### One limb of a register -/

@[simp] theorem readW_writeLo_self (s : State) (n : Reg) (v : Limb) :
    (s.writeLo n v).readW n = ofLimbs v (hiLimb (s.readW n)) := State.readW_writeW_self s n _

@[simp] theorem readW_writeHi_self (s : State) (n : Reg) (v : Limb) :
    (s.writeHi n v).readW n = ofLimbs (loLimb (s.readW n)) v := State.readW_writeW_self s n _

theorem readW_writeLo_other (s : State) {n m : Reg} (v : Limb) (h : m ≠ n) :
    (s.writeLo n v).readW m = s.readW m := State.readW_writeW_other s _ h

theorem readW_writeHi_other (s : State) {n m : Reg} (v : Limb) (h : m ≠ n) :
    (s.writeHi n v).readW m = s.readW m := State.readW_writeW_other s _ h

/-! ### The issue of a CMD value, by what it decodes to -/

theorem issueWord_of_instr (s : State) {v : Limb} {i : Instr} (h : decode v = .instr i) :
    s.issueWord v = exec i { s with cmd := commandWord v } := by
  simp only [State.issueWord, h]

theorem issueWord_of_illegal (s : State) {v : Limb} {why : Illegal} (h : decode v = .illegal why) :
    s.issueWord v = State.raise { s with cmd := commandWord v } .illegalCommand := by
  simp only [State.issueWord, h]

/-- Every accepted value sets the read-back (R28, R110 step 1). -/
theorem cmd_of_issueWord {s t : State} {v : Limb} (h : s.issueWord v = .next t) : t.cmd = commandWord v := by
  rcases issueWord_cases s v with ⟨r, -, e⟩ | ⟨k, e⟩ <;> rw [e] at h <;> cases h <;> rfl

/-! ### The 64-bit views -/

/-- STATUS as a number, field by field (R23). -/
theorem status_toWord_toNat (t : Status) :
    t.toWord.toNat = t.busy.toNat + 2 * t.done.toNat + 4 * t.fault.toNat + 16 * t.fcode.toNat := by
  have hc := t.fcode.isLt
  have hb : ∀ b : Bool, b.toNat < 2 := by decide
  have h1 := hb t.busy
  have h2 := hb t.done
  have h3 := hb t.fault
  simp only [Status.toWord, BitVec.toNat_setWidth, append_toNat, BitVec.toNat_ofBool, BitVec.toNat_ofNat]
  omega

/-- A bit of a limb as a number. -/
theorem getLsbD_limb_toNat (v : Limb) (k : Nat) : (v.getLsbD k).toNat = v.toNat / 2 ^ k % 2 := by
  rw [← BitVec.testBit_toNat, Nat.toNat_testBit]

/-- What FLAGS reads after a write is the value with its reserved bits cleared (R20, R22). -/
theorem flags_toWord_ofWord (v : Limb) : (Flags.ofWord v).toWord = v &&& 7 := by
  apply BitVec.eq_of_toNat_eq
  have h7 : (v &&& 7).toNat = v.toNat % 2 ^ 3 := Nat.and_two_pow_sub_one_eq_mod v.toNat 3
  rw [h7]
  simp only [Flags.ofWord, Flags.toWord, BitVec.toNat_setWidth, append_toNat, BitVec.toNat_ofBool, getLsbD_limb_toNat,
    BitVec.extractLsb'_toNat, Nat.shiftRight_eq_div_pow]
  omega

/-- What CTRL reads after a write is the value with its reserved bits cleared (R27). -/
theorem ctrl_toWord_ofWord (v : Limb) : (Ctrl.ofWord v).toWord = v &&& 3 := by
  apply BitVec.eq_of_toNat_eq
  have h3 : (v &&& 3).toNat = v.toNat % 2 ^ 2 := Nat.and_two_pow_sub_one_eq_mod v.toNat 2
  rw [h3]
  simp only [Ctrl.ofWord, Ctrl.toWord, BitVec.toNat_setWidth, append_toNat, BitVec.toNat_ofBool, getLsbD_limb_toNat]
  omega

/-! ### What is held -/

theorem holds_of_not_busy {s : State} (h : s.status.busy = false) (inp : Input) : s.holds inp = false := by
  cases inp <;> simp [State.holds, State.busy, h]

/-- An access to a register outside the interlock is not held (R36, R37). -/
theorem holds_of_not_heldWhileBusy (s : State) {a : HostAccess} (h : (windowReg a.off).heldWhileBusy = false) :
    s.holds (.access a) = false := by
  simp [State.holds, h]

/-- A CMD write that is not held comes with BUSY = 0 (R112). -/
theorem busy_of_cmd_not_held {s : State} {v : Limb} (h : s.holds (.access (.write 0x80 64 v)) = false) :
    s.status.busy = false := by
  rw [State.holds, admitted_write 0x80 v (by decide), HostAccess.off, windowReg_cmd] at h
  simpa [WindowReg.heldWhileBusy, State.busy] using h

/-- A STATUS write is performed whether or not a command is in flight (R25, R36). -/
theorem perform_status_write (s : State) (v : Limb) :
    s.perform (.access (.write 0x88 64 v)) =
      .next { s.respond .written with status := s.status.afterWrite v } := by
  rw [perform_write s 0x88 v (by decide), hostWrite_status]; rfl

/-- The STATUS write as a move of the relation, enabled wherever it is the next input (R25, R100). -/
theorem move_status_write {s : State} {v : Limb} {rest : List Input}
    (hp : s.pending = .access (.write 0x88 64 v) :: rest) :
    Move s { (s.dropPending rest).respond .written with status := s.status.afterWrite v } := by
  refine Or.inr (Or.inl ⟨_, rest, hp, holds_of_not_heldWhileBusy s ?_, perform_status_write (s.dropPending rest) v⟩)
  rw [HostAccess.off, windowReg_status]
  rfl

/-- In the fault state an input other than RESET is answered, and can change DONE and CTRL only (R38, R95). -/
theorem perform_in_fault_state {s s' : State} {inp : Input} (hf : s.status.fault = true) (hr : inp ≠ .reset)
    (h : s.perform inp = .next s') :
    ∃ r d c, s' = { s.respond r with status := { s.status with done := d }, ctrl := c } := by
  have hne : s.status.fault ≠ false := by simp [hf]
  rcases perform_cases h with ⟨hr', -⟩ | ⟨r, rfl⟩ | ⟨_, _, _, _, -, -, -, hf', -⟩ | ⟨_, -, hf', -⟩ | ⟨v, -, rfl⟩ |
    ⟨v, -, rfl⟩ | ⟨_, -, hf', -⟩
  · exact absurd hr' hr
  · exact ⟨r, _, _, rfl⟩
  · exact absurd hf' hne
  · exact absurd hf' hne
  · exact ⟨.written, _, _, rfl⟩
  · exact ⟨.written, _, _, rfl⟩
  · exact absurd hf' hne

/-- No input sets DONE (R25). -/
theorem done_of_perform {s s' : State} {inp : Input} (h : s.perform inp = .next s') (hd : s'.status.done = true) :
    s.status.done = true := by
  rcases perform_cases h with ⟨-, rfl⟩ | ⟨_, rfl⟩ | ⟨_, _, _, _, -, -, -, -, rfl⟩ | ⟨_, -, -, rfl⟩ | ⟨_, -, rfl⟩ |
    ⟨_, -, rfl⟩ | ⟨_, -, -, ⟨_, -, rfl⟩ | ⟨_, rfl⟩⟩
  · cases hd
  · exact hd
  · exact hd
  · exact hd
  · exact (Bool.and_eq_true_iff.1 hd).1
  all_goals exact hd

end Sys2Proof.Machine
end

section
/-! SUPPORT. The step and the completion, said once, and the invariant of the unit kept by each operation
(spec/10_state.md R23, R24, R30; spec/70_reset_and_hazards.md R107, R110, R111). -/

namespace Sys2Proof.Machine

/-! ### The step, by what is pending and in flight -/

/-- Every step answers a next state, whatever the choice is. -/
theorem stepWith_next (first : Nat → Bool) (s : State) : ∃ s', stepWith first s = .next s' := by
  unfold stepWith
  split
  · exact ⟨_, rfl⟩
  · split
    · exact ⟨_, rfl⟩
    · split
      · split
        · exact ⟨_, rfl⟩
        · exact perform_next _ _
      · exact perform_next _ _

/-- With nothing pending the step is the completion (R106, R111). -/
theorem step_of_nothing_pending {s : State} (h : s.pending = []) : step s = .next s.complete := by
  simp only [step, stepWith, h]

/-- With nothing in flight an input that is not held is performed. -/
theorem step_of_idle {s : State} {inp : Input} {rest : List Input} (hi : s.inFlight = none)
    (hp : s.pending = inp :: rest) (hh : s.holds inp = false) : step s = (s.dropPending rest).perform inp := by
  simp [step, stepWith, hp, hh, hi]

/-! ### Completion, field by field -/

section
variable {s : State} {r : InFlight}

theorem complete_flags (h : s.inFlight = some r) : s.complete.flags = r.flagsAfter s.flags := by
  rw [complete_of_some h]

theorem complete_status (h : s.inFlight = some r) :
    s.complete.status = { s.status with busy := false, done := true } := by
  rw [complete_of_some h]

theorem complete_done (h : s.inFlight = some r) : s.complete.status.done = true := by
  rw [complete_status h]

theorem complete_readW (h : s.inFlight = some r) (n : Reg) :
    s.complete.readW n = (s.applyWrites r.regWrites).readW n := by
  rw [complete_of_some h]; rfl

/-- Completion leaves CTRL, the read-back and the model's own fields (R111). -/
theorem complete_frame (h : s.inFlight = some r) :
    s.complete =
      { s with
        w := s.complete.w
        flags := s.complete.flags
        inFlight := none
        status := { s.status with busy := false, done := true } } := by
  rw [complete_of_some h]

end

/-! ### Which flags a legal record writes -/

theorem writesCarry_iff (o : Opcode) : writesCarry o = true ↔ o ∈ [Opcode.add, .adc, .sub, .sbb] := by
  cases o <;> simp [writesCarry]

/-- A legal record that changes C is an addition's or a subtraction's (R21). -/
theorem InFlight.Legal.op_of_carry_changed {r : InFlight} (hl : r.Legal) {f : Flags}
    (h : (r.flagsAfter f).c ≠ f.c) : r.op ∈ [Opcode.add, .adc, .sub, .sbb] := by
  obtain ⟨hc, -⟩ := hl
  rw [← writesCarry_iff, ← hc]
  cases hw : r.carryWrite with
  | none => simp [InFlight.flagsAfter, hw] at h
  | some c => rfl

/-- A legal record that changes CMP is CMP's, and the new value is not 0b10 (R22). -/
theorem InFlight.Legal.op_of_cmp_changed {r : InFlight} (hl : r.Legal) {f : Flags}
    (h : (r.flagsAfter f).cmp ≠ f.cmp) : r.op = .cmp ∧ (r.flagsAfter f).cmp ≠ 0b10 := by
  obtain ⟨-, hop, hne, -⟩ := hl
  cases hw : r.cmpWrite with
  | none => simp [InFlight.flagsAfter, hw] at h
  | some c => simp_all [InFlight.flagsAfter]

/-! ### The invariant, operation by operation -/

/-- The invariant speaks of IF, BUSY, FAULT and FCODE alone. -/
theorem State.Inv.congr {s t : State} (h : s.Inv) (hi : t.inFlight = s.inFlight)
    (hb : t.status.busy = s.status.busy) (hf : t.status.fault = s.status.fault)
    (hc : t.status.fcode = s.status.fcode) : t.Inv := by
  simpa only [State.Inv, hi, hb, hf, hc] using h

theorem State.Inv.inFlight_of_not_busy {s : State} (h : s.Inv) (hb : s.status.busy = false) : s.inFlight = none := by
  obtain ⟨hidle, -⟩ := h
  exact hidle.2 hb

theorem State.Inv.not_busy_of_fault {s : State} (h : s.Inv) (hf : s.status.fault = true) : s.status.busy = false := by
  obtain ⟨-, hfault, -⟩ := h
  exact hfault hf

theorem inv_reset : State.reset.Inv := by simp [State.Inv, State.reset]

theorem inv_applyReset (s : State) : s.applyReset.Inv := inv_reset.congr rfl rfl rfl rfl

/-- A legal record launched outside the fault state (R24, R30). -/
theorem State.Inv.launch {s : State} {r : InFlight} (h : s.Inv) (hf : s.status.fault = false) (hl : r.Legal) :
    (s.launch r).Inv := by
  obtain ⟨-, -, hcode, -, -⟩ := h
  simp [State.Inv, hf, hcode hf, hl]

/-- A fault raised with nothing in flight (R24, R88, R93). -/
theorem State.Inv.enterFault {s : State} (h : s.Inv) (hb : s.status.busy = false) (k : Fault) :
    (s.enterFault k).Inv := by
  simp only [State.Inv, State.enterFault_inFlight, State.enterFault_status, h.inFlight_of_not_busy hb, hb]
  exact ⟨by simp, by simp, by simp, fun _ => ⟨k, rfl⟩, by simp⟩

/-- Completion (R111): a command in flight means FAULT = 0, and stays so. -/
theorem State.Inv.complete {s : State} (h : s.Inv) : s.complete.Inv := by
  cases hi : s.inFlight with
  | none => rwa [complete_of_none hi]
  | some r =>
    obtain ⟨-, -, hcode, hfault, -⟩ := h
    simp only [State.Inv, complete_inFlight, complete_status hi]
    exact ⟨by simp, by simp, hcode, hfault, by simp⟩

/-- Performing an input that is not held keeps the invariant. A CMD write is the one that needs it not held: it comes
with BUSY = 0, so a fault is raised with nothing in flight. -/
theorem State.Inv.perform {s s' : State} {inp : Input} (h : s.Inv) (hh : s.holds inp = false)
    (hp : s.perform inp = .next s') : s'.Inv := by
  rcases perform_cases hp with ⟨-, rfl⟩ | ⟨r, rfl⟩ | ⟨_, _, n, x, -, -, -, -, rfl⟩ | ⟨v, -, -, rfl⟩ | ⟨v, -, rfl⟩ |
    ⟨v, -, rfl⟩ | ⟨v, rfl, hf, ⟨r, hl, rfl⟩ | ⟨k, rfl⟩⟩
  · exact inv_applyReset s
  · exact h.congr rfl rfl rfl rfl
  · exact h.congr rfl rfl rfl rfl
  · exact h.congr rfl rfl rfl rfl
  · exact h.congr rfl rfl rfl rfl
  · exact h.congr rfl rfl rfl rfl
  · exact State.Inv.launch (h.congr rfl rfl rfl rfl) hf hl
  · exact State.Inv.enterFault (h.congr rfl rfl rfl rfl) (busy_of_cmd_not_held hh) k

/-- Every step keeps the invariant, whatever the choice is. -/
theorem State.Inv.stepWith {first : Nat → Bool} {s s' : State} (h : s.Inv) (hs : stepWith first s = .next s') :
    s'.Inv := by
  obtain ⟨n, ⟨rfl, -⟩ | ⟨inp, rest, -, hh, hp⟩⟩ := stepWith_cases hs
  · exact State.Inv.complete (h.congr rfl rfl rfl rfl)
  · exact State.Inv.perform (s := .dropPending { s with turn := n } rest) (h.congr rfl rfl rfl rfl) hh hp

end Sys2Proof.Machine
end

section
/-! The obligations about the state, the decoder's refusals and the step, each from the lemmas above. -/

namespace Sys2Proof.Machine

/-! ### The invariant -/

/-- Settles O38: every operation keeps the invariant, and a step is a completion or the performance of an input that is
not held. -/
theorem stepKeepsTheInvariant : Obligations.StepKeepsTheInvariant := by
  intro s
  exact ⟨stepWith_next Config.completionFirst s, fun s' hinv hs => hinv.stepWith hs⟩

/-- Settles O39: nothing is in flight after reset, and FAULT and FCODE are 0. -/
theorem resetHasTheInvariant : Obligations.ResetHasTheInvariant := inv_reset

/-! ### ILLEGAL values and the read-back -/

/-- Settles O4: the decoder's four refusals, each carried from the word's fields to the value's bits; and an ILLEGAL
value takes the fault entry with code 3. -/
theorem illegalWordsAreExactlyTheFourConditions : Obligations.IllegalWordsAreExactlyTheFourConditions := by
  intro s v hacc
  constructor
  · have hop : (unpack (commandWord v)).op = v.extractLsb' 26 6 := extractLsb'_commandWord v (by decide)
    have hdest : (unpack (commandWord v)).rd = (unpack (commandWord v)).re ↔ v.extractLsb' 23 3 = v.extractLsb' 20 3 :=
      regField_commandWord_eq v (by decide) (by decide)
    simp only [decode_illegal_iff, hop, unusedZero_commandWord_eq_false_iff, toInstr_wf_eq_false_iff, hdest,
      and_left_comm]
  · rintro ⟨why, hd⟩
    rw [hostWrite_cmd, unlessFaulted_false (fault_of_accepts hacc), issueWord_of_illegal s hd]
    rfl

/-- Settles O31: the issue of every accepted value begins by setting the read-back. -/
theorem cmdReadsBackAcceptedWord : Obligations.CmdReadsBackAcceptedWord := by
  intro s t v hacc h
  rw [hostWrite_cmd, unlessFaulted_false (fault_of_accepts hacc)] at h
  rw [hostRead_cmd, cmd_of_issueWord h, commandWord]

/-! ### Issue and completion -/

/-- Settles O29: with nothing in flight the accepted write is performed, which is its issue. -/
theorem stepRunsTheDecodedCommand : Obligations.StepRunsTheDecodedCommand := by
  refine ⟨fun s v i rest hacc hi hp hd => ?_, fun s r _ hp => step_of_nothing_pending hp, fun s hi hp => ?_⟩
  · rw [step_of_idle hi hp (holds_of_not_busy (busy_of_accepts hacc) _), perform_write _ _ _ (by decide), hostWrite_cmd,
      unlessFaulted_false (s := (s.dropPending rest).respond .written) (fault_of_accepts hacc), issueWord_of_instr _ hd]
    rfl
  · rw [step_of_nothing_pending hp, complete_of_none hi]

/-- Settles O32: a legal record names no register twice, so each of its writes stands. -/
theorem completionPerformsTheRecord : Obligations.CompletionPerformsTheRecord := by
  rintro s r h ⟨-, -, -, -, hnodup⟩
  refine ⟨fun n v hm => ?_, fun n hm => ?_, fun c hc => ?_, fun hc => ?_, fun c hc => ?_, fun hc => ?_, complete_frame h⟩
  · rw [complete_readW h, readW_applyWrites_of_mem s hnodup hm]
  · rw [complete_readW h, readW_applyWrites_of_notMem s hm]
  all_goals rw [complete_flags h, InFlight.flagsAfter, hc]; rfl

/-- Settles O33: an issue leaves a legal record of the command's opcode, or raises a fault and leaves nothing to
complete. -/
theorem onlyAdderAndCmpWriteFlags : Obligations.OnlyAdderAndCmpWriteFlags := by
  intro s t i _ hi he
  have hraise : ∀ k : Fault, exec i s = s.raise k → t.complete.flags = s.flags := by
    intro k e
    rw [e] at he
    cases he
    rw [complete_of_none (s := s.enterFault k) hi, State.enterFault_flags]
  rcases exec_cases i s with ⟨r, hl, hop, e⟩ | ⟨-, e⟩ | ⟨-, e⟩ | ⟨-, e⟩
  · rw [e] at he
    cases he
    rw [← hop, complete_flags (State.launch_inFlight s r), State.launch_flags]
    exact ⟨hl.op_of_carry_changed, hl.op_of_cmp_changed⟩
  all_goals simp [hraise _ e]

/-- Settles O35: the completion and the STATUS write are both enabled, and neither disables the other. -/
theorem completionAndDoneClearInEitherOrder : Obligations.CompletionAndDoneClearInEitherOrder := by
  intro s r v rest hi hv hp
  have hcomplete : ∀ t : State, t.inFlight = some r → Move t t.complete := fun t ht => Or.inl ⟨by rw [ht]; rfl, rfl⟩
  constructor
  · refine ⟨s.complete, _, hcomplete s hi, complete_inFlight s, move_status_write ((complete_pending s).trans hp), rfl,
      complete_inFlight s, ?_⟩
    simp [Status.afterWrite, hv]
  · refine ⟨_, _, move_status_write hp, rfl, hcomplete _ hi, complete_pending _, complete_inFlight _, ?_⟩
    exact complete_done (r := r) hi

/-! ### What a step changes -/

/-- Settles O41: of the ways to perform an input, only a RESET and a limb write touch W. -/
theorem registersChangeOnlyByCompletionHostOrReset : Obligations.RegistersChangeOnlyByCompletionHostOrReset := by
  intro s s' hs hw
  obtain ⟨n, ⟨rfl, -⟩ | ⟨inp, rest, hp, -, hper⟩⟩ := stepWith_cases hs
  · rw [complete_withTurn] at hw ⊢
    refine Or.inl ⟨?_, rfl⟩
    by_contra hi
    rw [complete_of_none (by simpa using hi)] at hw
    exact hw rfl
  · rcases perform_cases hper with ⟨rfl, -⟩ | ⟨_, rfl⟩ | ⟨off, v, _, _, rfl, -, hoff, hf, -⟩ | ⟨_, -, -, rfl⟩ |
      ⟨_, -, rfl⟩ | ⟨_, -, rfl⟩ | ⟨_, -, -, ⟨_, -, rfl⟩ | ⟨_, rfl⟩⟩
    · exact Or.inr (Or.inl ⟨rest, hp⟩)
    · exact absurd rfl hw
    · exact Or.inr (Or.inr ⟨off, v, rest, hp, hoff, hf⟩)
    all_goals exact absurd rfl hw

/-- Settles O42: no input sets DONE, and a completion with nothing in flight changes nothing. -/
theorem doneIsSetOnlyByCompletion : Obligations.DoneIsSetOnlyByCompletion := by
  intro s s' hs h0 h1
  obtain ⟨n, ⟨rfl, -⟩ | ⟨inp, rest, -, -, hper⟩⟩ := stepWith_cases hs
  · rw [complete_withTurn] at h1 ⊢
    cases hi : s.inFlight with
    | none => rw [complete_of_none hi, h0] at h1; cases h1
    | some r => exact ⟨rfl, complete_inFlight s, by rw [complete_status hi], complete_pending s⟩
  · exact absurd ((done_of_perform hper h1).symm.trans h0) (by decide)

/-- Settles O44: with FAULT = 1 nothing is in flight, so a completion changes nothing; and an input other than RESET can
change DONE and CTRL only. -/
theorem faultStateLastsUntilReset : Obligations.FaultStateLastsUntilReset := by
  intro s s' hinv hf hs hreset
  have hb := hinv.not_busy_of_fault hf
  have hi := hinv.inFlight_of_not_busy hb
  obtain ⟨n, ⟨rfl, -⟩ | ⟨inp, rest, hp, -, hper⟩⟩ := stepWith_cases hs
  · rw [complete_withTurn, complete_of_none hi]
    exact ⟨hf, rfl, rfl, rfl, rfl, hi, hb⟩
  · have hr : inp ≠ .reset := fun e => hreset rest (e ▸ hp)
    obtain ⟨r, d, c, rfl⟩ := perform_in_fault_state (s := .dropPending { s with turn := n } rest) hf hr hper
    exact ⟨hf, rfl, rfl, rfl, rfl, hi, hb⟩

/-! ### The registers of the window -/

/-- Settles O47: a limb write rebuilds the register from the new limb and the old one. -/
theorem registerWritesAreReadBack : Obligations.RegisterWritesAreReadBack := by
  intro s n lo hi hf
  refine ⟨⟨_, hostWrite_wLo hf n lo, ?_, ?_, fun m hm => readW_writeLo_other s lo hm, rfl⟩,
    ⟨_, hostWrite_wHi hf n hi, ?_, ?_, fun m hm => readW_writeHi_other s hi hm, rfl⟩,
    _, _, hostWrite_wLo hf n lo, hostWrite_wHi (s := s.writeLo n lo) hf n hi, ?_, ?_, ?_, ?_, rfl⟩
  · exact (congrArg loLimb (readW_writeLo_self s n lo)).trans (loLimb_ofLimbs _ _)
  · exact (congrArg hiLimb (readW_writeLo_self s n lo)).trans (hiLimb_ofLimbs _ _)
  · exact (congrArg hiLimb (readW_writeHi_self s n hi)).trans (hiLimb_ofLimbs _ _)
  · exact (congrArg loLimb (readW_writeHi_self s n hi)).trans (loLimb_ofLimbs _ _)
  · simp [ofLimbs_toNat]
  · simp
  · simp
  · intro m hm
    rw [readW_writeHi_other _ hi hm, readW_writeLo_other _ lo hm]

/-- Settles O48: a write stores the fields, and a read of the stored fields is the value without its reserved bits. -/
theorem flagsAndCtrlWritesAreReadBack : Obligations.FlagsAndCtrlWritesAreReadBack := by
  intro s v
  refine ⟨fun hf => ⟨_, ?_, ?_, rfl⟩, _, hostWrite_ctrl s v, ?_, rfl⟩
  · rw [hostWrite_flags, unlessFaulted_false hf]; rfl
  · rw [hostRead_flags]; exact flags_toWord_ofWord v
  · rw [hostRead_ctrl]; exact ctrl_toWord_ofWord v

/-- Settles O49, by the view of STATUS as a number and the write at its offset. -/
theorem statusLayoutAndWrite : Obligations.StatusLayoutAndWrite := by
  intro s v
  rw [hostRead_status]
  exact ⟨status_toWord_toNat s.status, hostWrite_status s v⟩

/-- Settles O50: no offset from ID on is one of the interlock's, and none but ID's reads anything but 0. -/
theorem idAndReservedOffsets : Obligations.IdAndReservedOffsets := by
  intro s v
  exact ⟨hostRead_id s, hostWrite_id s v, fun off h => ⟨hostRead_reserved s h, hostWrite_reserved s h v⟩,
    fun a h => holds_of_not_heldWhileBusy s (heldWhileBusy_of_id_le a.off h)⟩

/-- Settles O56: the state a RESET leaves is the reset state but for the model's own fields. -/
theorem resetGivesEveryResetValue : Obligations.ResetGivesEveryResetValue := by
  intro s
  refine ⟨s.applyReset, rfl, ?_⟩
  have hw : ∀ n, s.applyReset.readW n = 0 := State.readW_reset
  simp only [List.forall_mem_cons, hostRead_id]
  refine ⟨⟨hw, ?_⟩, ⟨State.readW_reset, ?_⟩, by simp⟩
  all_goals exact ⟨rfl, rfl, rfl, rfl, rfl, rfl, rfl, rfl, rfl, rfl, rfl, trivial⟩

end Sys2Proof.Machine
end

section
/-! SUPPORT. The window and the relation, said once: which accesses are admitted, what is held, what the fault state
and the choice counter change, and where a byte lies (spec/20_memory.md R36, R38, R39, R40, R45). -/

namespace Sys2Proof.Machine

/-! ### The map, offset by offset -/

/-- Below CMD every offset, misaligned ones included, lies in a register limb (R36). -/
theorem windowReg_limb_of_lt :
    ∀ off : Offset, off.toNat < 0x80 → ∃ n, windowReg off = .wLo n ∨ windowReg off = .wHi n := by decide

/-- STATUS stands at one admitted offset only (R36). -/
theorem windowReg_ne_status :
    ∀ off : Offset, off.toNat % 8 = 0 → off.toNat ≠ 0x88 → windowReg off ≠ .status := by decide

/-- The interlock's registers by their admitted offsets (R36, R112). -/
theorem heldWhileBusy_iff :
    ∀ off : Offset, off.toNat % 8 = 0 →
      ((windowReg off).heldWhileBusy = true ↔ off.toNat ≤ 0x78 ∨ off.toNat = 0x80 ∨ off.toNat = 0x90) := by decide

/-- The register at an offset is the one at the start of its word: bits 2:0 select only the lane (R36, R39). -/
theorem windowReg_word :
    ∀ off : Offset, windowReg (BitVec.ofNat 8 (8 * (off.toNat / 8))) = windowReg off := by decide

/-! ### Admission -/

/-- The low three bits of an offset as a number. -/
theorem lane_toNat (off : Offset) : (off.extractLsb' 0 3).toNat = off.toNat % 8 := by
  simp [BitVec.extractLsb'_toNat]

theorem admitted_iff (a : HostAccess) : a.admitted = true ↔ a.width = 64 ∧ a.off.toNat % 8 = 0 := by
  rw [HostAccess.admitted, Bool.and_eq_true, beq_iff_eq, beq_iff_eq, ← lane_toNat, ← BitVec.toNat_inj]
  rfl

theorem perform_of_not_admitted (s : State) {a : HostAccess} (h : a.admitted = false) :
    s.perform (.access a) = .next (s.respond .busError) := by
  simp [State.perform, State.performAccess, h]

theorem perform_read (s : State) {off : Offset} (h : off.toNat % 8 = 0) :
    s.perform (.access (.read off 64)) = .next (s.respond (.data (s.hostRead off))) := by
  have ha : (HostAccess.read off 64).admitted = true := (admitted_iff _).2 ⟨rfl, h⟩
  simp [State.perform, State.performAccess, ha]

/-! ### What is held -/

theorem holds_access_iff (s : State) (a : HostAccess) :
    s.holds (.access a) = true ↔
      s.status.busy = true ∧ a.admitted = true ∧ (windowReg a.off).heldWhileBusy = true := by
  simp [State.holds, State.busy, and_assoc]

theorem holds_of_not_admitted (s : State) {a : HostAccess} (h : a.admitted = false) :
    s.holds (.access a) = false := by
  simp [State.holds, h]

theorem State.Inv.not_busy_of_idle {s : State} (h : s.Inv) (hi : s.inFlight = none) : s.status.busy = false := by
  obtain ⟨hidle, -⟩ := h
  exact hidle.1 hi

/-- A held input leaves the completion as the one step (R112). -/
theorem stepWith_of_held (first : Nat → Bool) {s : State} {inp : Input} {rest : List Input}
    (hp : s.pending = inp :: rest) (hh : s.holds inp = true) : stepWith first s = .next s.complete := by
  simp only [stepWith, hp, hh, if_true]

/-! ### The fault state -/

/-- A register's value does not depend on STATUS, but for STATUS itself (R38). -/
theorem windowValue_withStatus (s : State) (t : Status) {r : WindowReg} (h : r ≠ .status) :
    State.windowValue { s with status := t } r = s.windowValue r := by
  cases r with
  | status => exact absurd rfl h
  | wLo | wHi | cmd | flags | ctrl | id | reserved => rfl

/-- Writes to a limb, CMD and FLAGS are ignored in the fault state (R38). -/
theorem hostWrite_ignored {s : State} (hf : s.status.fault = true) {off : Offset} (v : Limb)
    (h : off.toNat < 0x80 ∨ off = 0x80 ∨ off = 0x90) : s.hostWrite off v = .next s := by
  rcases h with h | rfl | rfl
  · obtain ⟨n, hw | hw⟩ := windowReg_limb_of_lt off h <;> rw [State.hostWrite, hw] <;> exact unlessFaulted_true hf _
  · rw [hostWrite_cmd, unlessFaulted_true hf]
  · rw [hostWrite_flags, unlessFaulted_true hf]

/-! ### Writes made twice -/

theorem writeW_writeW_self (s : State) (n : Reg) (x y : Wide) : (s.writeW n x).writeW n y = s.writeW n y := by
  simp [State.writeW]

theorem writeLo_writeLo_self (s : State) (n : Reg) (v : Limb) : (s.writeLo n v).writeLo n v = s.writeLo n v := by
  rw [State.writeLo, readW_writeLo_self, hiLimb_ofLimbs, State.writeLo, writeW_writeW_self]

theorem writeHi_writeHi_self (s : State) (n : Reg) (v : Limb) : (s.writeHi n v).writeHi n v = s.writeHi n v := by
  rw [State.writeHi, readW_writeHi_self, loLimb_ofLimbs, State.writeHi, writeW_writeW_self]

/-- An update that keeps STATUS and is idempotent stays so under the check for the fault state (R38, R42). -/
theorem unlessFaulted_idempotent {f : State → State} (hstatus : ∀ s, (f s).status = s.status)
    (hf : ∀ s, f (f s) = f s) {s t : State} (h : s.unlessFaulted (.next (f s)) = .next t) :
    t.unlessFaulted (.next (f t)) = .next t := by
  by_cases hs : s.status.fault = true
  · rw [unlessFaulted_true hs] at h
    cases h
    exact unlessFaulted_true hs _
  · have hs : s.status.fault = false := by simpa using hs
    rw [unlessFaulted_false hs] at h
    cases h
    rw [unlessFaulted_false ((congrArg Status.fault (hstatus s)).trans hs), hf]

/-! ### Byte lanes -/

/-- The byte at lane `k` of an aligned word (R39). -/
theorem windowByte_add (s : State) {off : Offset} {k : Nat} (ho : off.toNat % 8 = 0) (hk : k < 8) :
    s.windowByte (off + BitVec.ofNat 8 k) = (s.hostRead off).extractLsb' (8 * k) 8 := by
  have hsum : (off + BitVec.ofNat 8 k).toNat = off.toNat + k := by
    have := off.isLt
    simp only [BitVec.toNat_add, BitVec.toNat_ofNat]
    omega
  have hword : windowReg (off + BitVec.ofNat 8 k) = windowReg off := by
    rw [← windowReg_word, ← windowReg_word off, hsum]
    congr 3
    omega
  have hlane : ((off + BitVec.ofNat 8 k).extractLsb' 0 3).toNat = k := by
    rw [lane_toNat, hsum]
    omega
  rw [State.windowByte, byteLane, State.hostRead, hword]
  exact congrArg (fun j => (s.hostRead off).extractLsb' (8 * j) 8) hlane

/-- A byte of one limb of a register is a byte of the register (R9, R39). -/
theorem byte_of_limb (a : Wide) (start : Nat) {k : Nat} (h : k < 8) :
    (a.extractLsb' start 64).extractLsb' (8 * k) 8 = a.extractLsb' (start + 8 * k) 8 := by
  ext i hi
  have hlt : 8 * k + i < 64 := by omega
  simp [hlt, Nat.add_assoc]

theorem byte_loLimb (a : Wide) {k : Nat} (h : k < 8) :
    (loLimb a).extractLsb' (8 * k) 8 = a.extractLsb' (8 * k) 8 := by
  rw [loLimb, byte_of_limb a 0 h, Nat.zero_add]

theorem byte_hiLimb (a : Wide) {k : Nat} (h : k < 8) :
    (hiLimb a).extractLsb' (8 * k) 8 = a.extractLsb' (8 * (8 + k)) 8 := by
  rw [hiLimb, byte_of_limb a 64 h, Nat.mul_add]

/-! ### The choice counter -/

/-- An issue neither reads the choice counter nor changes it (log entry 3). -/
theorem issueWord_withTurn {s t : State} {v : Limb} (n : Nat) (h : s.issueWord v = .next t) :
    State.issueWord { s with turn := n } v = .next { t with turn := n } := by
  cases hd : decode v with
  | illegal why =>
    rw [issueWord_of_illegal s hd] at h
    rw [issueWord_of_illegal _ hd]
    cases h
    rfl
  | instr i =>
    rw [issueWord_of_instr s hd] at h
    rw [issueWord_of_instr _ hd]
    rcases exec_congr i (s := { s with cmd := commandWord v }) (t := { s with cmd := commandWord v, turn := n }) rfl rfl
      with ⟨r, hs, ht⟩ | ⟨k, hs, ht⟩
    all_goals
      rw [hs] at h
      cases h
      exact ht

theorem unlessFaulted_withTurn {s t : State} {go go' : Host.Outcome State Fault Refusal} (n : Nat)
    (hgo : ∀ t, go = .next t → go' = .next { t with turn := n }) (h : s.unlessFaulted go = .next t) :
    State.unlessFaulted { s with turn := n } go' = .next { t with turn := n } := by
  by_cases hf : s.status.fault = true
  · rw [unlessFaulted_true hf] at h
    rw [unlessFaulted_true (s := { s with turn := n }) hf]
    cases h
    rfl
  · have hf : s.status.fault = false := by simpa using hf
    rw [unlessFaulted_false hf] at h
    rw [unlessFaulted_false (s := { s with turn := n }) hf]
    exact hgo t h

theorem writeWindow_withTurn {s t : State} {r : WindowReg} {v : Limb} (n : Nat) (h : s.writeWindow r v = .next t) :
    State.writeWindow { s with turn := n } r v = .next { t with turn := n } := by
  cases r with
  | cmd => exact unlessFaulted_withTurn n (fun _ => issueWord_withTurn n) h
  | wLo | wHi | flags => exact unlessFaulted_withTurn n (fun _ e => by cases e; rfl) h
  | status | ctrl | id | reserved => cases h; rfl

theorem windowValue_withTurn (s : State) (n : Nat) (r : WindowReg) :
    State.windowValue { s with turn := n } r = s.windowValue r := by
  cases r <;> rfl

/-- Performing an input neither reads the choice counter nor changes it (log entry 3). -/
theorem perform_withTurn {s t : State} {inp : Input} (n : Nat) (h : s.perform inp = .next t) :
    State.perform { s with turn := n } inp = .next { t with turn := n } := by
  cases inp with
  | reset => cases h; rfl
  | access a =>
    by_cases ha : a.admitted = true
    · simp only [State.perform, State.performAccess, ha, if_true] at h ⊢
      cases a with
      | read off w =>
        cases h
        simp only [State.hostRead, windowValue_withTurn]
        rfl
      | write off w v => exact writeWindow_withTurn n h
    · have ha : a.admitted = false := by simpa using ha
      rw [perform_of_not_admitted s ha] at h
      rw [perform_of_not_admitted _ ha]
      cases h
      rfl

theorem sameButTurn_withTurn (s : State) (n : Nat) : SameButTurn s { s with turn := n } := rfl

theorem sameButTurn_complete (s : State) (n : Nat) :
    SameButTurn s.complete (State.complete { s with turn := n }) := by
  rw [complete_withTurn s n]
  exact sameButTurn_withTurn _ n

/-- A step that always lets the completion go first is the completion (R45, V11). -/
theorem stepWith_completionFirst {s : State} (hi : s.inFlight.isSome = true) :
    ∃ s', stepWith (fun _ => true) s = .next s' ∧ SameButTurn s.complete s' := by
  cases hp : s.pending with
  | nil => exact ⟨s.complete, by simp only [stepWith, hp], sameButTurn_withTurn _ _⟩
  | cons inp rest =>
    cases hh : s.holds inp with
    | true => exact ⟨s.complete, stepWith_of_held _ hp hh, sameButTurn_withTurn _ _⟩
    | false => exact ⟨s.nextTurn.complete, by simp [stepWith, hp, hh, hi], sameButTurn_complete s (s.turn + 1)⟩

/-- A step that never lets the completion go first performs an input that is not held (R45, V11). -/
theorem stepWith_inputFirst {s : State} {inp : Input} {rest : List Input} (hp : s.pending = inp :: rest)
    (hh : s.holds inp = false) :
    ∃ n, stepWith (fun _ => false) s = State.perform { s.dropPending rest with turn := n } inp := by
  cases hi : s.inFlight with
  | none => exact ⟨s.turn, by simp [stepWith, hp, hh, hi, State.dropPending]⟩
  | some r => exact ⟨s.turn + 1, by simp [stepWith, hp, hh, hi, State.dropPending, State.nextTurn]⟩

end Sys2Proof.Machine
end

section
/-! The obligations about the window and the relation, each from the lemmas above. -/

namespace Sys2Proof.Machine

/-! ### The interlock and the relation -/

/-- Settles O34: the interlock's registers by offset, and the step that a held input leaves. -/
theorem busyHoldsExactlyWCmdAndFlags : Obligations.BusyHoldsExactlyWCmdAndFlags := by
  refine ⟨fun s a ha => ?_, fun s r a rest _ hp hh =>
    ⟨stepWith_of_held _ hp hh, complete_pending s⟩⟩
  obtain ⟨-, hoff⟩ := (admitted_iff a).1 ha
  rw [holds_access_iff, ← heldWhileBusy_iff a.off hoff]
  simp [ha]

/-- Settles O36: what is performed does not depend on the counter, and the invariant rules out an input held with
nothing in flight. -/
theorem stepIsAMove : Obligations.StepIsAMove := by
  intro s s' hinv hs
  obtain ⟨n, ⟨rfl, hwhy⟩ | ⟨inp, rest, hp, hh, hper⟩⟩ := stepWith_cases hs
  · refine ⟨s.complete, ?_, sameButTurn_complete s n⟩
    cases hi : s.inFlight with
    | some r => exact .inl ⟨by rw [hi]; rfl, rfl⟩
    | none =>
      rcases hwhy with hsome | hp | ⟨inp, rest, -, hh⟩
      · simp [hi] at hsome
      · exact .inr (.inr ⟨hp, hi, complete_of_none hi⟩)
      · simp [holds_of_not_busy (hinv.not_busy_of_idle hi)] at hh
  · obtain ⟨t, ht⟩ := perform_next (s.dropPending rest) inp
    cases (perform_withTurn n ht).symm.trans hper
    exact ⟨t, .inr (.inl ⟨inp, rest, hp, hh, ht⟩), sameButTurn_withTurn t n⟩

/-- Settles O37: a completion is the step that always lets it go first, an input the step that never does. -/
theorem everyMoveIsAStepOfSomeChoice : Obligations.EveryMoveIsAStepOfSomeChoice := by
  rintro s t - (⟨hi, rfl⟩ | ⟨inp, rest, hp, hh, hper⟩ | ⟨hp, hi, rfl⟩)
  · exact ⟨_, stepWith_completionFirst hi⟩
  · obtain ⟨n, hn⟩ := stepWith_inputFirst hp hh
    exact ⟨_, _, hn.trans (perform_withTurn n hper), sameButTurn_withTurn t n⟩
  · refine ⟨Config.completionFirst, t, ?_, sameButTurn_withTurn t t.turn⟩
    rw [← step, step_of_nothing_pending hp, complete_of_none hi]

/-! ### The window -/

/-- Settles O46: the map's rows, one lemma each. -/
theorem windowMap : Obligations.WindowMap :=
  ⟨fun n => ⟨windowReg_wLo n, windowReg_wHi n⟩, windowReg_cmd, windowReg_status, windowReg_flags, windowReg_ctrl,
    windowReg_id, windowReg_reserved⟩

/-- Settles O51: admission as a statement about numbers, and what its failure leaves. -/
theorem busErrorChangesNothing : Obligations.BusErrorChangesNothing := by
  refine fun s a => ⟨admitted_iff a, fun h => ?_⟩
  have ha : a.admitted = false := by
    rw [Bool.eq_false_iff, Ne, admitted_iff]
    omega
  exact ⟨perform_of_not_admitted s ha, holds_of_not_admitted s ha⟩

/-- Settles O45: the ignored writes, the two that work, the reads that do not see STATUS, and BUSY = 0. -/
theorem faultStateAccesses : Obligations.FaultStateAccesses := by
  intro s hinv hf
  refine ⟨fun off v h => hostWrite_ignored hf v h, hostWrite_ctrl s, hostWrite_status s, fun off ho hne => ?_,
    fun a => holds_of_not_busy (hinv.not_busy_of_fault hf) _⟩
  exact windowValue_withStatus s _ (windowReg_ne_status off ho hne)

/-- Settles O52: each of the writes is an idempotent update that keeps STATUS. -/
theorem readsAreFreeOfEffectsAndWritesIdempotent : Obligations.ReadsAreFreeOfEffectsAndWritesIdempotent := by
  refine ⟨fun s off h => perform_read s h, fun s t off v h hs => ?_⟩
  rcases h with h | rfl | rfl
  · obtain ⟨n, hw | hw⟩ := windowReg_limb_of_lt off h <;> rw [State.hostWrite, hw] at hs ⊢
    · exact unlessFaulted_idempotent (f := (·.writeLo n v)) (fun _ => rfl) (writeLo_writeLo_self · n v) hs
    · exact unlessFaulted_idempotent (f := (·.writeHi n v)) (fun _ => rfl) (writeHi_writeHi_self · n v) hs
  · rw [hostWrite_flags] at hs ⊢
    exact unlessFaulted_idempotent (f := fun s => { s with flags := Flags.ofWord v }) (fun _ => rfl) (fun _ => rfl) hs
  · rw [hostWrite_ctrl] at hs ⊢
    cases hs
    rfl

/-- Settles O53: the bytes of an aligned word, and the register's bytes by the limb they lie in. -/
theorem registersAreLittleEndianInTheWindow : Obligations.RegistersAreLittleEndianInTheWindow := by
  refine ⟨fun s off k ho hk => windowByte_add s ho hk, fun s n k hk => ?_⟩
  have hn := n.isLt
  by_cases h : k < 8
  · have ho : (BitVec.ofNat 8 (0x10 * n.val)).toNat % 8 = 0 := by rw [BitVec.toNat_ofNat]; omega
    rw [BitVec.ofNat_add, windowByte_add s ho h, hostRead_wLo, byte_loLimb _ h]
  · obtain ⟨j, rfl⟩ := Nat.exists_eq_add_of_le (Nat.le_of_not_lt h)
    have hj : j < 8 := by omega
    have ho : (BitVec.ofNat 8 (0x10 * n.val + 8)).toNat % 8 = 0 := by rw [BitVec.toNat_ofNat]; omega
    rw [← Nat.add_assoc, BitVec.ofNat_add, windowByte_add s ho hj, hostRead_wHi, byte_hiLimb _ hj]

/-- Settles O54: UNIT_BASE is 256 times the page, so an address in the window is the base plus the offset's number. -/
theorem systemAddressesOfTheWindow : Obligations.SystemAddressesOfTheWindow := by
  refine ⟨Nat.mul_mod_right 256 _, fun off addr => ?_⟩
  have hoff := off.isLt
  rw [offsetAt, systemAddress]
  split
  · rename_i h
    rw [Option.some_inj, ← BitVec.toNat_inj, BitVec.toNat_ofNat]
    omega
  · simp only [reduceCtorEq, false_iff]
    omega

end Sys2Proof.Machine
end

section
/-! SUPPORT. The decoder and the encoder, said together: which command a CMD value decodes to, and what the assembler
makes of a line (spec/30_encoding.md R59 to R64). -/

namespace Sys2Proof

/-! ### When a value decodes to a command -/

/-- The decoder accepts a value exactly when none of R61's four points holds, and gives the command of its fields. -/
theorem decode_instr_iff (v : Limb) (i : Instr) :
    decode v = .instr i ↔
      v.extractLsb' 32 32 = 0#32 ∧ ∃ o, Opcode.ofBits (unpack (commandWord v)).op = some o ∧
        (unpack (commandWord v)).unusedZero o.uses = true ∧ ((unpack (commandWord v)).toInstr o).wf = true ∧
        (unpack (commandWord v)).toInstr o = i := by
  simp only [decode]
  by_cases hu : v.extractLsb' 32 32 = 0#32
  · cases ho : Opcode.ofBits (unpack (commandWord v)).op with
    | none => simp [hu]
    | some o =>
      cases hz : (unpack (commandWord v)).unusedZero o.uses with
      | false => simp [hu, hz]
      | true => cases hw : ((unpack (commandWord v)).toInstr o).wf <;> simp [hu, hz, hw]
  · simp [hu]

/-- A value decodes to a command exactly when its upper half is 0, the command is well formed and the low word has the
command's fields. -/
theorem decode_instr_iff_fields (v : Limb) (i : Instr) :
    decode v = .instr i ↔
      v.extractLsb' 32 32 = 0#32 ∧ i.wf = true ∧ unpack (commandWord v) = i.fields := by
  rw [decode_instr_iff]
  refine and_congr_right fun _ => ⟨?_, ?_⟩
  · rintro ⟨o, ho, hz, hw, rfl⟩
    exact ⟨hw, (toInstr_fields ho hz).symm⟩
  · rintro ⟨hw, hf⟩
    rw [hf]
    refine ⟨i.opcode, ?_, fields_unusedZero i, ?_, fields_toInstr i⟩
    · rw [fields_op, ofBits_bits]
    · rwa [fields_toInstr]

theorem decode_encodeWrite {i : Instr} (h : i.wf = true) : decode (encodeWrite i) = .instr i := by
  rw [decode_instr_iff_fields, encodeWrite, commandWord_setWidth, encode, unpack_pack]
  exact ⟨upper_setWidth _, h, rfl⟩

theorem encodeWrite_of_decode {v : Limb} {i : Instr} (h : decode v = .instr i) : encodeWrite i = v := by
  obtain ⟨hu, -, hf⟩ := (decode_instr_iff_fields v i).1 h
  rw [encodeWrite, encode, ← hf, pack_unpack, setWidth_commandWord v hu]

/-! ### Opcodes and rows -/

theorem ofBits_eq_some_iff {b : BitVec 6} {o : Opcode} : Opcode.ofBits b = some o ↔ b = o.bits :=
  ⟨fun h => (bits_of_ofBits h).symm, fun h => h ▸ ofBits_bits o⟩

/-- A command of the fields is well formed unless it has two destinations and they are one register (R60). -/
theorem toInstr_wf_iff (f : Fields) (o : Opcode) :
    (f.toInstr o).wf = true ↔ (o ∈ [Opcode.mulf, .div64, .div128, .divf, .divw64] → f.rd ≠ f.re) := by
  rw [← Bool.not_eq_false, toInstr_wf_eq_false_iff, not_and]

/-- A value decodes to a command of an opcode exactly when its word matches the opcode's row under the mask, its upper
half is 0, and the two destinations of the row differ (R59). -/
theorem decode_opcode_iff (v : Limb) (o : Opcode) :
    (∃ i, decode v = .instr i ∧ i.opcode = o) ↔
      commandWord v &&& o.mask = o.pattern ∧ v.extractLsb' 32 32 = 0#32 ∧
        ((unpack (commandWord v)).toInstr o).wf = true := by
  rw [match_iff]
  constructor
  · rintro ⟨i, hd, rfl⟩
    obtain ⟨hu, o, ho, hz, hw, rfl⟩ := (decode_instr_iff v i).1 hd
    rw [toInstr_opcode]
    exact ⟨⟨ofBits_eq_some_iff.1 ho, hz⟩, hu, hw⟩
  · rintro ⟨⟨hop, hz⟩, hu, hw⟩
    exact ⟨_, (decode_instr_iff v _).2 ⟨hu, o, ofBits_eq_some_iff.2 hop, hz, hw, rfl⟩, toInstr_opcode _ o⟩

/-! ### The assembler (R64) -/

@[simp] theorem asmReg_val (r : Reg) : asmReg r.val = some r := dif_pos r.isLt

@[simp] theorem asmImm_toNat (n : BitVec 8) : asmImm n.toNat = some n := by
  rw [asmImm, if_pos n.isLt, BitVec.ofNat_toNat, BitVec.setWidth_eq]

/-- The line of a command stands for that command. -/
theorem instr?_asmLine (i : Instr) : i.asmLine.instr? = some i := by
  cases i <;> simp [Instr.asmLine, AsmLine.instr?, asmThree, asmTwo, asmShift, asmFour, asmFive]

/-- Only the line of a DIVW64 has the suffix `.R`. -/
theorem asmLine_suffixR (i : Instr) : (!i.asmLine.suffixR || i.asmLine.op == .divw64) = true := by
  cases i <;> simp [Instr.asmLine]

theorem assemble_asmLine {i : Instr} (h : i.wf = true) : i.asmLine.assemble = some (encode i) := by
  simp only [AsmLine.assemble, instr?_asmLine, asmLine_suffixR, h, Bool.and_self, if_true]

/-- What the assembler emits is the word of a well-formed command. -/
theorem assemble_eq_some {l : AsmLine} {cw : CmdWord} (h : l.assemble = some cw) :
    ∃ i : Instr, i.wf = true ∧ encode i = cw := by
  rw [AsmLine.assemble] at h
  split at h
  · cases h
  · rename_i i _
    split at h
    · rename_i hc
      exact ⟨i, (Bool.and_eq_true_iff.1 hc).1, Option.some.inj h⟩
    · cases h

end Sys2Proof
end

section
/-! SUPPORT. Commands run one after another (spec/30_encoding.md R65): what one command's issue and completion leave,
field by field, and the results the pseudo-instructions are made of, as numbers. -/

namespace Sys2Proof.Machine

/-! ### One command, issued and completed -/

/-- The state after the issue of a record and its completion (R110, R111). -/
def State.runRecord (s : State) (r : InFlight) : State := (s.launch r).complete

section
variable (s : State) (r : InFlight)

@[simp] theorem runRecord_w : (s.runRecord r).w = (s.applyWrites r.regWrites).w := by
  rw [State.runRecord, complete_of_some (State.launch_inFlight s r)]
  exact applyWrites_w_congr _ rfl

@[simp] theorem runRecord_flags : (s.runRecord r).flags = r.flagsAfter s.flags :=
  complete_flags (State.launch_inFlight s r)

@[simp] theorem runRecord_fault : (s.runRecord r).status.fault = s.status.fault := by
  rw [State.runRecord, complete_status (State.launch_inFlight s r)]
  rfl

@[simp] theorem runRecord_readW (n : Reg) : (s.runRecord r).readW n = (s.applyWrites r.regWrites).readW n := by
  simp only [State.readW, runRecord_w]

end

/-- A sequence whose first command is issued without a fault goes on from that command's completion. -/
theorem runCommands_of_issue {s : State} {i : Instr} {r : InFlight} (hf : s.status.fault = false)
    (h : exec i s = s.issue r) (rest : List Instr) : runCommands (i :: rest) s = runCommands rest (s.runRecord r) := by
  have hl : (s.launch r).faulted = false := hf
  simp only [runCommands, h, State.issue, hl, State.runRecord]
  rfl

/-- A sequence of one command issued without a fault ends with its completion. -/
theorem runCommands_one {s : State} {i : Instr} {r : InFlight} (hf : s.status.fault = false)
    (h : exec i s = s.issue r) : runCommands [i] s = .next (s.runRecord r) :=
  runCommands_of_issue hf h []

/-- A sequence of two commands issued without a fault; the second one reads what the first one wrote. -/
theorem runCommands_two {s : State} {i j : Instr} {r q : InFlight} (hf : s.status.fault = false)
    (hi : exec i s = s.issue r) (hj : exec j (s.runRecord r) = (s.runRecord r).issue q) :
    runCommands [i, j] s = .next ((s.runRecord r).runRecord q) := by
  rw [runCommands_of_issue hf hi, runCommands_one ((runRecord_fault s r).trans hf) hj]

/-! ### What a record of one register write leaves -/

section
variable (s : State) (op : Opcode) (rd : Reg)

@[simp] theorem readW_runRecord_oneWrite_self (v : Wide) : (s.runRecord (oneWrite op rd v)).readW rd = v := by
  simp [oneWrite]

theorem readW_runRecord_oneWrite_other (v : Wide) {n : Reg} (h : n ≠ rd) :
    (s.runRecord (oneWrite op rd v)).readW n = s.readW n := by
  simp [oneWrite, State.readW_writeW_other _ _ h]

@[simp] theorem readW_runRecord_carryWrites_self (x : Wide × Bool) :
    (s.runRecord (carryWrites op rd x)).readW rd = x.1 := by
  simp [carryWrites]

theorem readW_runRecord_carryWrites_other (x : Wide × Bool) {n : Reg} (h : n ≠ rd) :
    (s.runRecord (carryWrites op rd x)).readW n = s.readW n := by
  simp [carryWrites, State.readW_writeW_other _ _ h]

@[simp] theorem carry_runRecord_carryWrites (x : Wide × Bool) :
    (s.runRecord (carryWrites op rd x)).flags.c = x.2 := by
  rw [runRecord_flags]
  rfl

end

/-! ### Sums and differences as numbers -/

/-- The sum and its carry-out together are the exact sum (R67, R68). -/
theorem addWithCarry_toNat (a b : Wide) (cin : Bool) :
    (addWithCarry a b cin).1.toNat + 2 ^ 128 * (addWithCarry a b cin).2.toNat = a.toNat + b.toNat + cin.toNat := by
  have := a.isLt; have := b.isLt
  have : cin.toNat < 2 := cin.toNat_lt
  simp only [addWithCarry, Nat.toNat_testBit, BitVec.toNat_ofNat]
  omega

/-- The difference and its borrow-out together are the exact difference (R69, R70). -/
theorem subWithBorrow_toNat (a b : Wide) (bin : Bool) :
    (subWithBorrow a b bin).1.toNat + b.toNat + bin.toNat = a.toNat + 2 ^ 128 * (subWithBorrow a b bin).2.toNat := by
  have := a.isLt; have := b.isLt
  have : bin.toNat < 2 := bin.toNat_lt
  simp only [subWithBorrow, BitVec.toNat_ofNat]
  by_cases h : a.toNat < b.toNat + bin.toNat
  · simp only [h, decide_true, Bool.toNat_true]
    omega
  · simp only [h, decide_false, Bool.toNat_false]
    omega

/-- A carry-out of 2^256 and the 256 bits below it, from the exact sum. -/
theorem mod_and_carry_of_sum {x n : Nat} {c : Bool} (hx : x < 2 ^ 256) (h : x + 2 ^ 256 * c.toNat = n) :
    x = n % 2 ^ 256 ∧ c = decide (2 ^ 256 ≤ n) := by
  cases c <;> simp only [Bool.toNat_false, Bool.toNat_true] at h
  · exact ⟨by omega, (decide_eq_false (by omega)).symm⟩
  · exact ⟨by omega, (decide_eq_true (by omega)).symm⟩

/-- A borrow-out of 2^256 and the 256 bits of the difference, from the exact difference. -/
theorem mod_and_borrow_of_difference {x a b : Nat} {c : Bool} (hx : x < 2 ^ 256)
    (h : x + b = a + 2 ^ 256 * c.toNat) : x = (a + 2 ^ 256 - b) % 2 ^ 256 ∧ c = decide (a < b) := by
  cases c <;> simp only [Bool.toNat_false, Bool.toNat_true] at h
  · exact ⟨by omega, (decide_eq_false (by omega)).symm⟩
  · exact ⟨by omega, (decide_eq_true (by omega)).symm⟩

/-- Two wide values, high and low, are a number below 2^256. -/
theorem wide_pair_lt (hi lo : Wide) : hi.toNat * 2 ^ 128 + lo.toNat < 2 ^ 256 := by
  have := hi.isLt; have := lo.isLt
  omega

section
variable (al ah bl bh : Wide)

/-- Two additions, the second with the first one's carry, are the 256-bit addition with its carry-out (R65). -/
theorem addWithCarry_chain :
    let lo := addWithCarry al bl false
    let hi := addWithCarry ah bh lo.2
    let n := ah.toNat * 2 ^ 128 + al.toNat + (bh.toNat * 2 ^ 128 + bl.toNat)
    hi.1.toNat * 2 ^ 128 + lo.1.toNat = n % 2 ^ 256 ∧ hi.2 = decide (2 ^ 256 ≤ n) := by
  intro lo hi n
  have hlo := addWithCarry_toNat al bl false
  have hhi := addWithCarry_toNat ah bh lo.2
  refine mod_and_carry_of_sum (wide_pair_lt hi.1 lo.1) ?_
  simp only [lo, hi, n, Bool.toNat_false] at hlo hhi ⊢
  omega

/-- Two subtractions, the second with the first one's borrow, are the 256-bit subtraction with its borrow-out (R65). -/
theorem subWithBorrow_chain :
    let lo := subWithBorrow al bl false
    let hi := subWithBorrow ah bh lo.2
    let a := ah.toNat * 2 ^ 128 + al.toNat
    let b := bh.toNat * 2 ^ 128 + bl.toNat
    hi.1.toNat * 2 ^ 128 + lo.1.toNat = (a + 2 ^ 256 - b) % 2 ^ 256 ∧ hi.2 = decide (a < b) := by
  intro lo hi a b
  have hlo := subWithBorrow_toNat al bl false
  have hhi := subWithBorrow_toNat ah bh lo.2
  refine mod_and_borrow_of_difference (wide_pair_lt hi.1 lo.1) ?_
  simp only [lo, hi, a, b, Bool.toNat_false] at hlo hhi ⊢
  omega

end

/-! ### Shifts and the leading-zero count as numbers -/

theorem shiftLeft_of_le (a : Wide) {n : Nat} (h : 128 ≤ n) : shiftLeft a n = 0 := if_pos h

theorem shiftLeft_of_lt (a : Wide) {n : Nat} (h : n < 128) : shiftLeft a n = a <<< n := by
  rw [shiftLeft, if_neg (Nat.not_le.2 h)]
  apply BitVec.eq_of_toNat_eq
  rw [BitVec.toNat_ofNat, BitVec.toNat_shiftLeft, Nat.shiftLeft_eq]

/-- Dropping the low `k` bits shortens a number by `k` bits. -/
theorem size_div_two_pow (n k : Nat) : Nat.size (n / 2 ^ k) = Nat.size n - k := by
  refine eq_of_forall_lt_iff fun m => ?_
  rw [Nat.lt_size, Nat.le_div_iff_mul_le (Nat.two_pow_pos k), ← Nat.pow_add, ← Nat.lt_size, Nat.lt_sub_iff_add_lt]

theorem size_eq_log2_succ {n : Nat} (h : n ≠ 0) : Nat.size n = Nat.log2 n + 1 := by
  refine eq_of_forall_lt_iff fun m => ?_
  rw [Nat.lt_size, ← Nat.le_log2 h, Nat.lt_succ_iff]

theorem clz64_eq_size {x : Limb} (h : x ≠ 0#64) : clz64 x = 64 - Nat.size x.toNat := by
  have hx : x.toNat ≠ 0 := fun e => h (BitVec.eq_of_toNat_eq e)
  rw [clz64, size_eq_log2_succ hx]
  omega

/-- The count, limb by limb in the model, is 128 minus the operand's bit length (R77). -/
theorem clz_eq_size (a : Wide) : clz a = 128 - Nat.size a.toNat := by
  have hhi : Nat.size (hiLimb a).toNat = Nat.size a.toNat - 64 := by rw [hiLimb_toNat, size_div_two_pow]
  rw [clz]
  split
  · rename_i h
    have : Nat.size (hiLimb a).toNat ≠ 0 := by
      rw [Ne, Nat.size_eq_zero]
      exact fun e => h (BitVec.eq_of_toNat_eq e)
    rw [clz64_eq_size h]
    omega
  · rename_i h
    have hhi0 : a.toNat / 2 ^ 64 = 0 := by rw [← hiLimb_toNat, not_not.1 h]; rfl
    have hlo : (loLimb a).toNat = a.toNat := by rw [loLimb_toNat]; omega
    have hsize : Nat.size a.toNat ≤ 64 := Nat.size_le.2 (by omega)
    split
    · rename_i h'
      rw [clz64_eq_size h', hlo]
      omega
    · rename_i h'
      have : a.toNat = 0 := by rw [← hlo, not_not.1 h']; rfl
      rw [this, Nat.size_zero]

theorem trunc128_clz_toNat (a : Wide) : (trunc128 (clz a)).toNat = 128 - Nat.size a.toNat := by
  rw [clz_eq_size, BitVec.toNat_ofNat]
  omega

/-- A nonzero value shifted left by its leading-zero count has bit 127 set. -/
theorem getLsbD_shiftLeft_clz {a : Wide} (h : a ≠ 0) : (a <<< (128 - Nat.size a.toNat)).getLsbD 127 = true := by
  have hsize : Nat.size a.toNat ≤ 128 := Nat.size_le.2 a.isLt
  have ha : a.toNat ≠ 0 := fun e => h (BitVec.eq_of_toNat_eq e)
  have htop : a.toNat.testBit (Nat.log2 a.toNat) = true := Nat.testBit_log2 ha
  have hlog := size_eq_log2_succ ha
  have hidx : 127 - (128 - Nat.size a.toNat) = Nat.log2 a.toNat := by omega
  have hle : ¬ 127 < 128 - Nat.size a.toNat := by omega
  rw [BitVec.getLsbD_shiftLeft, hidx, ← BitVec.testBit_toNat, htop, decide_eq_false hle]
  rfl

end Sys2Proof.Machine
end

section
/-! The obligations about the encoding and the pseudo-instructions, each from the lemmas above. -/

namespace Sys2Proof.Machine

/-! ### The decoder, the encoder and the assembler -/

/-- Settles O1: the word's fields are the command's, and its upper half is 0. -/
theorem decodeOfEncodeIsTheCommand : Obligations.DecodeOfEncodeIsTheCommand := fun _ h => decode_encodeWrite h

/-- Settles O2: the decoded command's fields are the word's, and packing gives the word back. -/
theorem decodedValueIsTheCommandsWord : Obligations.DecodedValueIsTheCommandsWord := by
  intro v i h
  obtain ⟨-, hw, -⟩ := (decode_instr_iff_fields v i).1 h
  exact ⟨hw, encodeWrite_of_decode h⟩

/-- Settles O3: matching under the mask says that OP is the opcode's and the unused fields are 0, which leaves R60 to
the command's own check; the masks are a finite table. -/
theorem wordSelectsMnemonicByMaskAndMatch : Obligations.WordSelectsMnemonicByMaskAndMatch := by
  refine ⟨fun v o => ?_, fun o => by cases o <;> decide⟩
  have hdest : (unpack (commandWord v)).rd = (unpack (commandWord v)).re ↔ v.extractLsb' 23 3 = v.extractLsb' 20 3 :=
    regField_commandWord_eq v (by decide) (by decide)
  rw [decode_opcode_iff, toInstr_wf_iff, Ne, hdest]
  rfl

/-- Settles O7: a command's line stands for the command, and whatever is emitted is the word of a well-formed one. -/
theorem assemblerEmitsOnlyLegalWords : Obligations.AssemblerEmitsOnlyLegalWords := by
  refine ⟨fun i h => assemble_asmLine h, fun l cw h => ?_⟩
  obtain ⟨i, hw, rfl⟩ := assemble_eq_some h
  exact ⟨i, decode_encodeWrite hw⟩

/-- Settles O5: the table of values, its inverse, and the 64 OP values one by one. -/
theorem opcodeValuesAndReservedValues : Obligations.OpcodeValuesAndReservedValues :=
  ⟨by decide, ofBits_bits, by decide⟩

/-! ### Equal destinations -/

/-- Settles O26: in each of the five, the check of the destinations stands before everything that reads an operand. -/
theorem equalDestinationsFaultFirst : Obligations.EqualDestinationsFaultFirst := by
  intro s rd rc ra rb rnd _
  have hcheck := withDistinct_self s rd
  exact ⟨hcheck _, hcheck _, hcheck _, hcheck _, hcheck _⟩

/-! ### Pseudo-instructions -/

/-- Settles O58: a shift by 0 copies and a shift by 128 clears. -/
theorem movAndZero : Obligations.MovAndZero := by
  intro s wd wa hacc
  have hf := fault_of_accepts hacc
  refine ⟨⟨_, runCommands_one hf rfl, ?_, by rw [runRecord_flags]; rfl⟩,
    ⟨_, runCommands_one hf rfl, ?_, by rw [runRecord_flags]; rfl⟩⟩
  · have hcopy : shiftLeft (s.readW wa) 0 = s.readW wa := by rw [shiftLeft_of_lt _ (by decide), BitVec.shiftLeft_zero]
    simp [oneWrite, wideOperand, immediateAmount, hcopy]
  · simp [oneWrite, immediateAmount, shiftLeft_of_le]

/-- Settles O59: the second command reads its own operands, which the first one leaves alone, and the first one's carry
or borrow; the two exact equations add up. -/
theorem wideAddAndSub : Obligations.WideAddAndSub := by
  intro s wl wh wal wah wbl wbh hacc hah hbh hlh a b
  have hf := fault_of_accepts hacc
  have hah' := fun op x => readW_runRecord_carryWrites_other s op wl x hah.symm
  have hbh' := fun op x => readW_runRecord_carryWrites_other s op wl x hbh.symm
  refine ⟨⟨_, runCommands_two hf rfl rfl, ?_⟩, ⟨_, runCommands_two hf rfl rfl, ?_⟩⟩ <;>
    simp only [wideOperand, hah', hbh', readW_runRecord_carryWrites_self, carry_runRecord_carryWrites,
      readW_runRecord_carryWrites_other _ _ _ _ hlh]
  · exact addWithCarry_chain (s.readW wal) (s.readW wah) (s.readW wbl) (s.readW wbh)
  · exact subWithBorrow_chain (s.readW wal) (s.readW wah) (s.readW wbl) (s.readW wbh)

/-- Settles O60: the count stays below 128, so the shift by it is no shift to 0, and it brings the leading 1 to bit
127. -/
theorem normSetsTheTopBit : Obligations.NormSetsTheTopBit := by
  intro s wd wn wa hacc hna hdn hne
  have hf := fault_of_accepts hacc
  have hcount := trunc128_clz_toNat (s.readW wa)
  have hpos : 0 < (s.readW wa).toNat := Nat.pos_of_ne_zero fun e => hne (BitVec.eq_of_toNat_eq e)
  have hlt : 128 - Nat.size (s.readW wa).toNat < 128 := Nat.sub_lt (by decide) (Nat.size_pos.2 hpos)
  refine ⟨_, runCommands_two hf rfl rfl, ?_⟩
  simp only [wideOperand, registerAmount, readW_runRecord_oneWrite_self,
    readW_runRecord_oneWrite_other _ _ _ _ hna.symm, readW_runRecord_oneWrite_other _ _ _ _ hdn.symm, hcount,
    shiftLeft_of_lt _ hlt]
  exact ⟨trivial, trivial, getLsbD_shiftLeft_clz hne⟩

end Sys2Proof.Machine
end

section
/-! SUPPORT. Addition, subtraction and comparison (spec/40_add_sub_cmp.md): the completion of a record that writes one
register and C, the limb-level adder and the limb-by-limb comparison as numbers. -/

namespace Sys2Proof.Machine

/-- A command whose issue launches an adder's record completes with that record's value in W[RD] and its carry or borrow
in C; CMP and the other registers stay (R21). -/
theorem completes_of_carryWrites {i : Instr} {s : State} {op : Opcode} {rd : Reg} {x : Wide × Bool}
    (h : exec i s = s.issue (carryWrites op rd x)) :
    Completes i s (s.w.set rd x.1) { s.flags with c := x.2 } :=
  completes_of_issue _ h rfl rfl

/-- The carry out of the low limbs, taken into the high limbs, gives the whole sum and its carry-out (R66). -/
theorem limbAdd_eq_addWithCarry (a b : Wide) (cin : Bool) : limbAdd a b cin = addWithCarry a b cin := by
  have := a.isLt; have := b.isLt
  have : cin.toNat < 2 := cin.toNat_lt
  rw [addWithCarry_eq, limbAdd]
  refine Prod.ext ?_ ?_
  · apply BitVec.eq_of_toNat_eq
    simp only [ofLimbs_toNat, BitVec.toNat_ofNat, Nat.toNat_testBit, loLimb_toNat, hiLimb_toNat]
    omega
  · simp only [Nat.toNat_testBit, loLimb_toNat, hiLimb_toNat]
    rw [Nat.testBit_eq_decide_div_mod_eq, decide_eq_decide]
    omega

/-- The order of two limbs that differ, where it is the order of the whole values. -/
theorem ite_limb_order_eq {x y m n : Nat} (hne : m ≠ n) (h : y < x ↔ n < m) :
    (if y < x then 1 else -1 : Int) = if n < m then 1 else if m < n then -1 else 0 := by
  by_cases hlt : n < m
  · rw [if_pos (h.2 hlt), if_pos hlt]
  · rw [if_neg (mt h.1 hlt), if_neg hlt, if_pos (by omega)]

/-- The comparison, high limb first, is the order of the whole values (R17, R71). -/
theorem compareLimbs_eq (a b : Wide) :
    compareLimbs a b = if b.toNat < a.toNat then 1 else if a.toNat < b.toNat then -1 else 0 := by
  simp only [compareLimbs, ne_eq, ← BitVec.toNat_inj, hiLimb_toNat, loLimb_toNat]
  by_cases hhi : a.toNat / 2 ^ 64 = b.toNat / 2 ^ 64
  · by_cases hlo : a.toNat % 2 ^ 64 = b.toNat % 2 ^ 64
    · have heq : a.toNat = b.toNat := by omega
      simp [heq]
    · rw [if_neg (not_not.2 hhi), if_pos hlo]
      exact ite_limb_order_eq (by omega) (by omega)
  · rw [if_pos hhi]
    exact ite_limb_order_eq (by omega) (by omega)

/-- FLAGS.CMP of the comparison is the code of the unsigned order (R22, R71). -/
theorem cmpCode_compareLimbs (a b : Wide) :
    cmpCode (compareLimbs a b) =
      if b.toNat < a.toNat then 0b01 else if a.toNat < b.toNat then 0b11 else 0b00 := by
  rw [compareLimbs_eq]
  split
  · rfl
  · split <;> rfl

/-- A value that is the word of a well-formed command decodes to it (R63). -/
theorem decode_of_encodeWrite_eq {v : Limb} {i : Instr} (hw : i.wf = true) (hv : encodeWrite i = v) :
    decode v = .instr i := hv ▸ decode_encodeWrite hw

end Sys2Proof.Machine
end

section
/-! The obligations about addition, subtraction and comparison, and the words written out in the spec, each from the
lemmas above. -/

namespace Sys2Proof.Machine

/-- Settles O8: the row's mask, and the closed form of a sum without carry-in. -/
theorem addCompletesWithSumAndCarry : Obligations.AddCompletesWithSumAndCarry := by
  intro s rd ra rb _
  have h : Completes (.add rd ra rb) s _ _ := completes_of_carryWrites rfl
  rw [addWithCarry_eq] at h
  exact ⟨Laws.RowMatch.add rd ra rb, h⟩

/-- Settles O9: the same with FLAGS.C as the carry-in. -/
theorem adcCompletesWithSumAndCarry : Obligations.AdcCompletesWithSumAndCarry := by
  intro s rd ra rb _
  have h : Completes (.adc rd ra rb) s _ _ := completes_of_carryWrites rfl
  rw [addWithCarry_eq, Bool.toNat, Bool.cond_eq_ite] at h
  exact ⟨Laws.RowMatch.adc rd ra rb, h⟩

/-- Settles O10: the row's mask, and the closed form of a difference without borrow-in. -/
theorem subCompletesWithDifferenceAndBorrow : Obligations.SubCompletesWithDifferenceAndBorrow := by
  intro s rd ra rb _
  have h : Completes (.sub rd ra rb) s _ _ := completes_of_carryWrites rfl
  rw [subWithBorrow_eq, Bool.toNat_false, Nat.cast_zero, sub_zero] at h
  exact ⟨Laws.RowMatch.sub rd ra rb, h⟩

/-- Settles O11: the same with FLAGS.C as the borrow-in. -/
theorem sbbCompletesWithDifferenceAndBorrow : Obligations.SbbCompletesWithDifferenceAndBorrow := by
  intro s rd ra rb _
  have h : Completes (.sbb rd ra rb) s _ _ := completes_of_carryWrites rfl
  rw [subWithBorrow_eq, Bool.toNat, Bool.cond_eq_ite, Nat.cast_ite, Nat.cast_one, Nat.cast_zero] at h
  exact ⟨Laws.RowMatch.sbb rd ra rb, h⟩

/-- Settles O12: the record writes no register, and its code is that of the unsigned order. -/
theorem cmpCompletesWithUnsignedOrder : Obligations.CmpCompletesWithUnsignedOrder := by
  intro s ra rb _
  refine ⟨Laws.RowMatch.cmp ra rb, ?_⟩
  rw [← cmpCode_compareLimbs]
  exact completes_of_issue _ rfl rfl rfl

/-- Settles O13: the carry between the limbs is bit 64 of the low sum. -/
theorem limbCarryChainEqualsWholeAddition : Obligations.LimbCarryChainEqualsWholeAddition :=
  limbAdd_eq_addWithCarry

/-- Settles O6: the legal words are their commands' own, and the decoder refuses the others at the point named. -/
theorem specWordsDecodeAsWritten : Obligations.SpecWordsDecodeAsWritten := by
  refine ⟨?_, ?_, ?_, ?_, ?_, ?_, ?_, by decide, by decide, by decide, by decide⟩
  all_goals exact decode_of_encodeWrite_eq (by decide) (by decide)

end Sys2Proof.Machine
end

section
/-! SUPPORT. Shifts (spec/41_shift_clz.md): the completion of a record that writes one register and no flag, the model's
shifts as shifts of bit vectors, and the bits of a value's limbs. -/

namespace Sys2Proof.Machine

/-- A command whose issue launches a record of one register write completes with that value in W[RD] and the flags as
they were. -/
theorem completes_of_oneWrite {i : Instr} {s : State} {op : Opcode} {rd : Reg} {v : Wide}
    (h : exec i s = s.issue (oneWrite op rd v)) : Completes i s (s.w.set rd v) s.flags :=
  completes_of_issue _ h rfl rfl

/-! ### The shifts of whole values (R72), for every amount: from 128 on both sides are 0 -/

theorem shiftLeft_eq (a : Wide) (n : Nat) : shiftLeft a n = a <<< n := by
  rcases Nat.lt_or_ge n 128 with h | h
  · exact shiftLeft_of_lt a h
  · rw [shiftLeft_of_le a h, BitVec.shiftLeft_eq_zero h]; rfl

theorem shiftRight_eq (a : Wide) (n : Nat) : shiftRight a n = a >>> n := by
  rw [shiftRight]
  split
  · rename_i h
    exact (BitVec.ushiftRight_eq_zero h).symm
  · rw [← Nat.shiftRight_eq_div_pow, ← BitVec.toNat_ushiftRight, trunc128, BitVec.ofNat_toNat, BitVec.setWidth_eq]

/-! ### The bits of limbs -/

theorem getLsbD_loLimb (a : Wide) (j : Nat) : (loLimb a).getLsbD j = (decide (j < 64) && a.getLsbD j) := by
  rw [loLimb, BitVec.getLsbD_extractLsb', Nat.zero_add]

theorem getLsbD_hiLimb (a : Wide) (j : Nat) : (hiLimb a).getLsbD j = a.getLsbD (64 + j) := by
  rw [hiLimb, BitVec.getLsbD_extractLsb']
  by_cases h : j < 64
  · simp [h]
  · simp [h, BitVec.getLsbD_of_ge a (64 + j) (by omega)]

/-- A value is given by its two limbs. -/
theorem ofLimbs_eq_iff {lo hi : Limb} {a : Wide} : ofLimbs lo hi = a ↔ lo = loLimb a ∧ hi = hiLimb a := by
  constructor
  · rintro rfl
    exact ⟨(loLimb_ofLimbs lo hi).symm, (hiLimb_ofLimbs lo hi).symm⟩
  · rintro ⟨rfl, rfl⟩
    exact ofLimbs_limbs a

/-! ### The limbs of a shifted value (R72) -/

section
variable (a : Wide)

/-- The low limb of a left shift takes nothing from the high limb. -/
theorem loLimb_shiftLeft (n : Nat) : loLimb (a <<< n) = loLimb a <<< n := by
  apply BitVec.eq_of_getLsbD_eq
  intro j hj
  have hj' : j < 128 := by omega
  have hsub : j - n < 64 := by omega
  simp only [getLsbD_loLimb, BitVec.getLsbD_shiftLeft, hj, hj', hsub, decide_true, Bool.true_and]

/-- The high limb of a right shift takes nothing from the low limb. -/
theorem hiLimb_ushiftRight (n : Nat) : hiLimb (a >>> n) = hiLimb a >>> n := by
  apply BitVec.eq_of_getLsbD_eq
  intro j _
  simp only [getLsbD_hiLimb, BitVec.getLsbD_ushiftRight, Nat.add_left_comm]

/-- Shifted left by at most a limb: bits `n` and up of the high limb come from the high limb, those below from the top
of the low limb. -/
theorem hiLimb_shiftLeft_of_le {n : Nat} (h : n ≤ 64) :
    hiLimb (a <<< n) = (hiLimb a <<< n) ||| (loLimb a >>> (64 - n)) := by
  apply BitVec.eq_of_getLsbD_eq
  intro j hj
  simp only [getLsbD_hiLimb, getLsbD_loLimb, BitVec.getLsbD_or, BitVec.getLsbD_shiftLeft, BitVec.getLsbD_ushiftRight]
  by_cases hjn : j < n
  · have hidx : 64 + j - n = 64 - n + j := by omega
    have hbound : 64 - n + j < 64 ∧ 64 + j < 128 ∧ ¬ 64 + j < n := by omega
    simp [hidx, hbound, hjn]
  · have hidx : 64 + j - n = 64 + (j - n) := by omega
    have hbound : ¬ 64 - n + j < 64 ∧ 64 + j < 128 ∧ ¬ 64 + j < n := by omega
    simp [hidx, hbound, hjn, hj]

/-- Shifted left by at least a limb: the high limb is the low one, shifted by the rest. -/
theorem hiLimb_shiftLeft_of_ge {n : Nat} (h : 64 ≤ n) : hiLimb (a <<< n) = loLimb a <<< (n - 64) := by
  apply BitVec.eq_of_getLsbD_eq
  intro j hj
  simp only [getLsbD_hiLimb, getLsbD_loLimb, BitVec.getLsbD_shiftLeft]
  have hidx : 64 + j - n = j - (n - 64) := by omega
  have hbound : 64 + j < 128 ∧ j - (n - 64) < 64 ∧ (64 + j < n ↔ j < n - 64) := by omega
  simp [hidx, hbound, hj]

/-- Shifted right by at most a limb: bits below `64 - n` of the low limb come from the low limb, the others from the
bottom of the high limb. -/
theorem loLimb_ushiftRight_of_le {n : Nat} (h : n ≤ 64) :
    loLimb (a >>> n) = (loLimb a >>> n) ||| (hiLimb a <<< (64 - n)) := by
  apply BitVec.eq_of_getLsbD_eq
  intro j hj
  simp only [getLsbD_hiLimb, getLsbD_loLimb, BitVec.getLsbD_or, BitVec.getLsbD_shiftLeft, BitVec.getLsbD_ushiftRight]
  by_cases hjn : j < 64 - n
  · have hbound : n + j < 64 := by omega
    simp [hj, hjn, hbound]
  · have hidx : 64 + (j - (64 - n)) = n + j := by omega
    have hbound : ¬ n + j < 64 := by omega
    simp [hidx, hj, hjn, hbound]

/-- Shifted right by at least a limb: the low limb is the high one, shifted by the rest. -/
theorem loLimb_ushiftRight_of_ge {n : Nat} (h : 64 ≤ n) : loLimb (a >>> n) = hiLimb a >>> (n - 64) := by
  apply BitVec.eq_of_getLsbD_eq
  intro j hj
  have hidx : 64 + (n - 64 + j) = n + j := by omega
  simp only [getLsbD_hiLimb, getLsbD_loLimb, BitVec.getLsbD_ushiftRight, hj, hidx, decide_true, Bool.true_and]

end

/-! ### The limb-level shifts (R72) -/

/-- Each branch gives the two limbs of the shifted value; the branch of 64 is the last one with nothing left over. -/
theorem limbShiftLeft_eq (a : Wide) (n : Nat) : limbShiftLeft a n = a <<< n := by
  have hlo : 64 ≤ n → 0 = loLimb (a <<< n) := fun h => by
    rw [loLimb_shiftLeft, BitVec.shiftLeft_eq_zero h]; rfl
  rw [limbShiftLeft]
  split_ifs with h0 hlt h64
  · rw [h0, BitVec.shiftLeft_zero]
  · exact ofLimbs_eq_iff.2 ⟨(loLimb_shiftLeft a n).symm, (hiLimb_shiftLeft_of_le a hlt.le).symm⟩
  · refine ofLimbs_eq_iff.2 ⟨hlo h64.ge, ?_⟩
    rw [hiLimb_shiftLeft_of_ge a h64.ge, h64, BitVec.shiftLeft_zero]
  · have hge : 64 ≤ n := Nat.not_lt.1 hlt
    exact ofLimbs_eq_iff.2 ⟨hlo hge, (hiLimb_shiftLeft_of_ge a hge).symm⟩

/-- The mirror of the left shift: the branches are the same, with the limbs exchanged. -/
theorem limbShiftRight_eq (a : Wide) (n : Nat) : limbShiftRight a n = a >>> n := by
  have hhi : 64 ≤ n → 0 = hiLimb (a >>> n) := fun h => by
    rw [hiLimb_ushiftRight, BitVec.ushiftRight_eq_zero h]; rfl
  rw [limbShiftRight]
  split_ifs with h0 hlt h64
  · rw [h0, BitVec.ushiftRight_zero]
  · exact ofLimbs_eq_iff.2 ⟨(loLimb_ushiftRight_of_le a hlt.le).symm, (hiLimb_ushiftRight a n).symm⟩
  · refine ofLimbs_eq_iff.2 ⟨?_, hhi h64.ge⟩
    rw [loLimb_ushiftRight_of_ge a h64.ge, h64, BitVec.ushiftRight_zero]
  · have hge : 64 ≤ n := Nat.not_lt.1 hlt
    exact ofLimbs_eq_iff.2 ⟨(loLimb_ushiftRight_of_ge a hge).symm, hhi hge⟩

end Sys2Proof.Machine
end

section
/-! The obligations about shifts and CLZ, each from the lemmas above. -/

namespace Sys2Proof.Machine

/-- Settles O14: the rows' masks, and the shift functions' values, whose two branches are those of the statement. -/
theorem registerShiftsComplete : Obligations.RegisterShiftsComplete := by
  intro s rd ra rb _
  exact ⟨Laws.RowMatch.shl rd ra rb, Laws.RowMatch.shr rd ra rb, completes_of_oneWrite rfl,
    completes_of_oneWrite rfl⟩

/-- Settles O15: the same with the immediate as the amount. -/
theorem immediateShiftsComplete : Obligations.ImmediateShiftsComplete := by
  intro s rd ra imm _
  exact ⟨Laws.RowMatch.shli rd ra imm, Laws.RowMatch.shri rd ra imm, completes_of_oneWrite rfl,
    completes_of_oneWrite rfl⟩

/-- Settles O16: the model's shifts are those of bit vectors, whose bits the library gives. -/
theorem shiftsMoveBitsAndEnterZeros : Obligations.ShiftsMoveBitsAndEnterZeros := by
  intro a n j hj
  rw [shiftLeft_eq, shiftRight_eq, BitVec.getLsbD_shiftLeft, BitVec.getLsbD_ushiftRight, Nat.add_comm n j]
  simp [hj, ← decide_not]

/-- Settles O17: both are the shift of bit vectors. -/
theorem limbShiftsEqualWholeShifts : Obligations.LimbShiftsEqualWholeShifts := fun a n _ =>
  ⟨(limbShiftLeft_eq a n).trans (shiftLeft_eq a n).symm, (limbShiftRight_eq a n).trans (shiftRight_eq a n).symm⟩

/-- Settles O18: the row's mask, and the count, limb by limb in the model, as 128 minus the bit length. -/
theorem clzCompletesWithLeadingZeroCount : Obligations.ClzCompletesWithLeadingZeroCount := by
  intro s rd ra _
  rw [← clz_eq_size]
  exact ⟨Laws.RowMatch.clz rd ra, completes_of_oneWrite rfl⟩

end Sys2Proof.Machine
end

section
/-! SUPPORT. Multiplication (spec/42_multiply.md): the completion of a record that writes two registers and no flag, a
value below 2^256 as two halves, and the schoolbook sums as products. -/

namespace Sys2Proof.Machine

/-- A command whose issue launches a record of two register writes completes with both values in their registers, the
second write last, and the flags as they were. -/
theorem completes_of_twoWrites {i : Instr} {s : State} {op : Opcode} {rd re : Reg} {v u : Wide}
    (h : exec i s = s.issue (twoWrites op rd re v u)) : Completes i s ((s.w.set rd v).set re u) s.flags :=
  completes_of_issue _ h rfl rfl

/-- A product of two wide values fits in 256 bits (R79). -/
theorem wide_mul_lt (a b : Wide) : a.toNat * b.toNat < 2 ^ 256 := by
  rw [show 256 = 128 + 128 from rfl, Nat.pow_add]
  exact Nat.mul_lt_mul'' a.isLt b.isLt

/-- A number below 2^256 is its high half, truncated to 128 bits without loss, and its low half. -/
theorem trunc128_halves {n : Nat} (h : n < 2 ^ 256) :
    (trunc128 (n / 2 ^ 128)).toNat * 2 ^ 128 + (trunc128 n).toNat = n := by
  simp only [BitVec.toNat_ofNat]
  omega

/-- `value = hi·2^64 + lo`, for the limbs of a value (R17). -/
theorem toNat_eq_limbs (a : Wide) : a.toNat = (hiLimb a).toNat * 2 ^ 64 + (loLimb a).toNat := by
  rw [← ofLimbs_toNat, ofLimbs_limbs]

/-- The four partial products are those of multiplying out `(hi·2^64 + lo)·(hi'·2^64 + lo')` (R79). -/
theorem schoolbookProduct_eq_mul (a b : Wide) : schoolbookProduct a b = a.toNat * b.toNat := by
  rw [schoolbookProduct, toNat_eq_limbs a, toNat_eq_limbs b]
  ring

/-- The two partial products are those of multiplying out `(hi·2^64 + lo)·b` (R80). -/
theorem schoolbookNarrow_eq_trunc128_mul (a : Wide) (b : Limb) :
    schoolbookNarrow a b = trunc128 (a.toNat * b.toNat) := by
  rw [schoolbookNarrow, toNat_eq_limbs a]
  congr 1
  ring

end Sys2Proof.Machine
end

section
/-! The obligations about multiplication, each from the lemmas above. -/

namespace Sys2Proof.Machine

/-- Settles O19: with distinct destinations the check of R60 lets the issue go on, and the two halves written make up
the product. -/
theorem mulfCompletesWithFullProduct : Obligations.MulfCompletesWithFullProduct := by
  intro s rd re ra rb _ hne
  exact ⟨Laws.RowMatch.mulf rd re ra rb, _, _, trunc128_halves (wide_mul_lt (s.readW ra) (s.readW rb)),
    completes_of_twoWrites (withDistinct_ne s hne _)⟩

/-- Settles O20: the row's mask, and the low limb of W[RB] as W[RB] modulo 2^64. -/
theorem mul64CompletesWithTruncatedProduct : Obligations.Mul64CompletesWithTruncatedProduct := by
  intro s rd ra rb _
  rw [← loLimb_toNat]
  exact ⟨Laws.RowMatch.mul64 rd ra rb, completes_of_oneWrite rfl⟩

/-- Settles O21: both sums are a product of the operands' limbs, multiplied out. -/
theorem partialProductsSumToTheProduct : Obligations.PartialProductsSumToTheProduct :=
  ⟨fun a b => ⟨schoolbookProduct_eq_mul a b, wide_mul_lt a b⟩, schoolbookNarrow_eq_trunc128_mul⟩

end Sys2Proof.Machine
end

section
/-! SUPPORT. Division (spec/43_divide.md): the checks ahead of a division, the quotients as numbers, and the restoring
loop as floor division. -/

namespace Sys2Proof.Machine

/-! ### The checks ahead of a division -/

section
variable {i : Instr} {s : State} {rd re : Reg} {d : Nat}

/-- With distinct destinations, a zero divisor is the fault, whatever would follow it (R81, R92). -/
theorem takesFault_of_zero_divisor {go : Host.Outcome State Fault Refusal}
    (h : exec i s = s.withDistinct rd re (s.withDivisor d go)) (hne : rd ≠ re) (hd : d = 0) : TakesFault i s 1 := by
  subst hd
  rw [withDistinct_ne s hne, withDivisor_zero] at h
  exact h

/-- With distinct destinations and a nonzero divisor, the issue goes on. -/
theorem exec_of_nonzero_divisor {go : Host.Outcome State Fault Refusal}
    (h : exec i s = s.withDistinct rd re (s.withDivisor d go)) (hne : rd ≠ re) (hd : d ≠ 0) : exec i s = go := by
  rw [h, withDistinct_ne s hne, withDivisor_ne s hd]

end

/-! ### Quotients -/

/-- Where the dividend's high half is below the divisor, the quotient fits in 128 bits (R86). -/
theorem wide_div_lt {hi lo d : Wide} (h : hi.toNat < d.toNat) :
    (hi.toNat * 2 ^ 128 + lo.toNat) / d.toNat < 2 ^ 128 := by
  have hlo := lo.isLt
  refine Nat.div_lt_of_lt_mul ?_
  omega

/-- The quotient and remainder of DIVF lose nothing when they are written to registers (R86). -/
theorem wide_div_exact {hi lo d : Wide} (h : hi.toNat < d.toNat) :
    let n := hi.toNat * 2 ^ 128 + lo.toNat
    (trunc128 (n / d.toNat)).toNat * d.toNat + (trunc128 (n % d.toNat)).toNat = n ∧
      (trunc128 (n % d.toNat)).toNat < d.toNat := by
  intro n
  have hr : n % d.toNat < d.toNat := Nat.mod_lt _ (Nat.zero_lt_of_lt h)
  rw [BitVec.toNat_ofNat, BitVec.toNat_ofNat, Nat.mod_eq_of_lt (wide_div_lt h), Nat.mod_eq_of_lt (hr.trans d.isLt)]
  exact ⟨Nat.div_add_mod' n d.toNat, hr⟩

/-- The rounded quotient is the truncated one or the next, modulo 2^128 (R82). -/
theorem roundHalfUp_toNat (rnd : Bool) (q : Wide) (r d : Nat) :
    roundHalfUp rnd q.toNat r d = if rnd = true ∧ d ≤ 2 * r then q + 1 else q := by
  have hq : trunc128 q.toNat = q := (BitVec.ofNat_toNat 128 q).trans (BitVec.setWidth_eq q)
  have hq1 : trunc128 (q.toNat + 1) = q + 1 := (BitVec.ofNat_add q.toNat 1).trans (congrArg (· + 1) hq)
  rw [roundHalfUp, hq, hq1]

/-! ### The restoring loop (R83) -/

/-- The loop divides the number that the partial remainder and the dividend's low `k` bits make up. A partial remainder
below the divisor stays so: doubled and with one bit more it is below `2·d`, and the trial subtraction takes `d` off. -/
theorem restoringLoop_eq (n d k : Nat) {r : Nat} (q : Nat) (hr : r < d) :
    restoringLoop n d k r q = (q + (r * 2 ^ k + n % 2 ^ k) / d, (r * 2 ^ k + n % 2 ^ k) % d) := by
  induction k generalizing r q with
  | zero => simp [restoringLoop, Nat.mod_one, Nat.div_eq_of_lt hr, Nat.mod_eq_of_lt hr]
  | succ k ih =>
    have hbit : n / 2 ^ k % 2 < 2 := Nat.mod_lt _ (by decide)
    have hnext : r * 2 ^ (k + 1) + n % 2 ^ (k + 1) = (2 * r + n / 2 ^ k % 2) * 2 ^ k + n % 2 ^ k := by
      rw [Nat.mod_pow_succ]; ring
    rw [restoringLoop, hnext]
    generalize hr' : 2 * r + n / 2 ^ k % 2 = r'
    by_cases hge : d ≤ r'
    · have hlt : r' - d < d := by omega
      have hsub : r' * 2 ^ k + n % 2 ^ k = (r' - d) * 2 ^ k + n % 2 ^ k + d * 2 ^ k := by
        rw [Nat.add_right_comm, ← Nat.add_mul, Nat.sub_add_cancel hge]
      rw [if_pos hge, ih _ hlt, hsub, Nat.add_mul_div_left _ _ (Nat.zero_lt_of_lt hr), Nat.add_mul_mod_self_left,
        Nat.add_right_comm q, Nat.add_assoc q]
    · rw [if_neg hge, ih _ (Nat.not_le.1 hge)]

/-- The loop over a `k`-bit dividend, from remainder 0. -/
theorem restoringDivide_eq {k n d : Nat} (hd : 0 < d) (hn : n < 2 ^ k) : restoringDivide k n d = (n / d, n % d) := by
  rw [restoringDivide, restoringLoop_eq n d k 0 hd, Nat.zero_mul, Nat.zero_add, Nat.zero_add, Nat.mod_eq_of_lt hn]

/-- The shortened loop: the dividend's high half is the partial remainder it starts from. -/
theorem restoringDivideFrom_eq {hi lo d : Nat} (hhi : hi < d) (hlo : lo < 2 ^ 128) :
    restoringDivideFrom hi lo d = ((hi * 2 ^ 128 + lo) / d, (hi * 2 ^ 128 + lo) % d) := by
  rw [restoringDivideFrom, restoringLoop_eq lo d 128 0 hhi, Nat.zero_add, Nat.mod_eq_of_lt hlo]

/-- Both operands scaled by one power of two have the same quotient, and the remainder scaled with them. -/
theorem normalizedDivide_eq {n : Nat} {d : Wide} (hd : d ≠ 0) (hn : n < 2 ^ 256) :
    normalizedDivide n d = (n / d.toNat, n % d.toNat) := by
  have hpow : 0 < 2 ^ clz d := Nat.two_pow_pos _
  have hclz : clz d ≤ 128 := by rw [clz_eq_size]; exact Nat.sub_le _ _
  have hpos : 0 < d.toNat * 2 ^ clz d := Nat.mul_pos (Nat.pos_of_ne_zero (BitVec.toNat_ne.1 hd)) hpow
  have hlt : n * 2 ^ clz d < 2 ^ 384 := by
    rw [show 384 = 256 + 128 from rfl, Nat.pow_add]
    exact Nat.mul_lt_mul_of_lt_of_le hn (Nat.pow_le_pow_right (by decide) hclz) (Nat.two_pow_pos 128)
  simp only [normalizedDivide]
  rw [restoringDivide_eq hpos hlt, Nat.mul_div_mul_right _ _ hpow, Nat.mul_mod_mul_right, Nat.mul_div_cancel _ hpow]

end Sys2Proof.Machine
end

section
/-! The obligations about division, each from the lemmas above. -/

namespace Sys2Proof.Machine

/-- Settles O22: the row's mask, the two checks, and the low limb of W[RB] as W[RB] modulo 2^64. -/
theorem div64DividesOrFaults : Obligations.Div64DividesOrFaults := by
  intro s rd re ra rb _ hne
  rw [← loLimb_toNat]
  exact ⟨Laws.RowMatch.div64 rd re ra rb, takesFault_of_zero_divisor rfl hne,
    fun hd => completes_of_twoWrites (exec_of_nonzero_divisor rfl hne hd)⟩

/-- Settles O23: the same with the whole of W[RB]. -/
theorem div128DividesOrFaults : Obligations.Div128DividesOrFaults := by
  intro s rd re ra rb _ hne
  exact ⟨Laws.RowMatch.div128 rd re ra rb, fun hd => takesFault_of_zero_divisor rfl hne (congrArg BitVec.toNat hd),
    fun hd => completes_of_twoWrites (exec_of_nonzero_divisor rfl hne (BitVec.toNat_ne.1 hd))⟩

/-- Settles O24: past the two checks the overflow check decides, and where it lets the issue go on, the quotient fits in
its register. -/
theorem divfDividesOrFaults : Obligations.DivfDividesOrFaults := by
  intro s rd re rc ra rb _ hne
  refine ⟨Laws.RowMatch.divf rd re rc ra rb,
    fun hd => takesFault_of_zero_divisor rfl hne (congrArg BitVec.toNat hd), fun hd hov => ?_, fun hlt => ?_⟩
  · exact (exec_of_nonzero_divisor rfl hne (BitVec.toNat_ne.1 hd)).trans (if_pos hov)
  · obtain ⟨heq, hr⟩ := wide_div_exact (lo := s.readW ra) hlt
    have hd : (s.readW rb).toNat ≠ 0 := Nat.ne_zero_of_lt hlt
    exact ⟨_, _, heq, hr, completes_of_twoWrites
      ((exec_of_nonzero_divisor rfl hne hd).trans (if_neg (Nat.not_le.2 hlt)))⟩

/-- Settles O25: as DIV64, with the rounded quotient as the truncated one or the next. -/
theorem divw64DividesRoundsOrFaults : Obligations.Divw64DividesRoundsOrFaults := by
  intro s rd re rc ra rb rnd _ hne
  rw [← loLimb_toNat]
  refine ⟨Laws.RowMatch.divw64 rd re rc ra rb rnd, takesFault_of_zero_divisor rfl hne, fun hd => ?_⟩
  have h : Completes (.divw64 rd re rc ra rb rnd) s _ _ :=
    completes_of_twoWrites (exec_of_nonzero_divisor rfl hne hd)
  rw [roundHalfUp_toNat] at h
  exact h

/-- Settles O28: each form is the one loop, from a partial remainder below the divisor. -/
theorem restoringDivisionIsFloorDivision : Obligations.RestoringDivisionIsFloorDivision :=
  ⟨fun _ _ => restoringDivide_eq, fun _ _ => restoringDivide_eq, fun _ _ _ => restoringDivideFrom_eq,
    fun _ _ => normalizedDivide_eq⟩

end Sys2Proof.Machine
end

section
/-! SUPPORT. Faults and the end of a run (spec/60_exceptions.md; spec/70_reset_and_hazards.md R116): which command takes
which fault, the one input that enters the fault state, and the outcome of a run, by the state it stands at. -/

namespace Sys2Proof.Machine

/-! ### The fault a command takes (R88) -/

section
variable {i : Instr} {s : State} {c : BitVec 4}

/-- A command whose issue launches a record takes no fault: FAULT stays 0. -/
theorem not_takesFault_of_issue {r : InFlight} (hacc : s.accepts = true) (h : exec i s = s.issue r) :
    ¬ TakesFault i s c := by
  intro ht
  have hnext : s.issue r = .next _ := h.symm.trans ht
  injection hnext with hstate
  have hfault : s.status.fault = true := congrArg (·.status.fault) hstate
  exact absurd (hfault.symm.trans (fault_of_accepts hacc)) (by decide)

/-- The code of the fault a command takes is the raised fault's. -/
theorem code_of_takesFault {k : Fault} (h : exec i s = s.raise k) (ht : TakesFault i s c) : c = k.code := by
  have hnext : s.raise k = .next _ := h.symm.trans ht
  injection hnext with hstate
  exact (congrArg (·.status.fcode) hstate).symm

/-- The faults of a well-formed command: code 1 under the divisions, code 2 under DIVF (R88). Code 3 needs equal
destinations, which such a command does not have. -/
theorem takesFault_cases_of_wf (hacc : s.accepts = true) (hwf : i.wf = true) (ht : TakesFault i s c) :
    (i.opcode ∈ [Opcode.div64, .div128, .divf, .divw64] ∧ c = 1) ∨ (i.opcode = .divf ∧ c = 2) := by
  rcases exec_cases i s with ⟨r, -, -, e⟩ | ⟨hnwf, -⟩ | ⟨hop, e⟩ | ⟨hop, e⟩
  · exact absurd ht (not_takesFault_of_issue hacc e)
  · exact absurd (hwf.symm.trans hnwf) (by decide)
  · exact Or.inl ⟨hop, code_of_takesFault e ht⟩
  · exact Or.inr ⟨hop, code_of_takesFault e ht⟩

end

/-! ### Fault entry (R91, R93) -/

@[simp] theorem complete_fault (s : State) : s.complete.status.fault = s.status.fault := by
  cases h : s.inFlight with
  | none => rw [complete_of_none h]
  | some r => rw [complete_status h]

/-- The one input that takes FAULT from 0 to 1 is a CMD write whose issue raises a fault. -/
theorem cmd_write_of_fault_entered {s s' : State} {inp : Input} (h : s.perform inp = .next s')
    (h0 : s.status.fault = false) (h1 : s'.status.fault = true) :
    ∃ (v : Limb) (k : Fault), inp = .access (.write 0x80 64 v) ∧
      s' = State.enterFault { s.respond .written with cmd := commandWord v } k := by
  have hne : s'.status.fault ≠ s.status.fault := by simp [h0, h1]
  rcases perform_cases h with ⟨-, rfl⟩ | ⟨_, rfl⟩ | ⟨_, _, _, _, -, -, -, -, rfl⟩ | ⟨_, -, -, rfl⟩ | ⟨_, -, rfl⟩ |
    ⟨_, -, rfl⟩ | ⟨v, rfl, -, ⟨_, -, rfl⟩ | ⟨k, rfl⟩⟩
  · cases h1
  · exact absurd rfl hne
  · exact absurd rfl hne
  · exact absurd rfl hne
  · exact absurd rfl hne
  · exact absurd rfl hne
  · exact absurd rfl hne
  · exact ⟨v, k, rfl, rfl⟩

/-! ### The interrupt level (R99) -/

theorem irq_iff (s : State) :
    s.irq = true ↔
      (s.status.done = true ∧ s.ctrl.doneIE = true) ∨ (s.status.fault = true ∧ s.ctrl.faultIE = true) := by
  simp [State.irq]

/-! ### The normal end (R116) -/

theorem atNormalEnd_iff (s : State) :
    s.atNormalEnd = true ↔ s.pending = [] ∧ s.status.busy = false ∧ s.status.fault = false := by
  simp [State.atNormalEnd, and_assoc]

/-- The reads' values, as answers, are the answers without those to writes and the bus errors. -/
theorem map_data_filterMap_readValue (l : List Response) :
    (l.filterMap Response.readValue).map Response.data = l.filter (fun a => a != .written && a != .busError) := by
  induction l with
  | nil => rfl
  | cons a l ih => cases a <;> simp [Response.readValue, List.filterMap_cons, ih]

theorem endsNormallyWith_normalOutcome {s : State} (h : s.atNormalEnd = true) :
    s.EndsNormallyWith s.normalOutcome := by
  obtain ⟨hp, hb, hf⟩ := (atNormalEnd_iff s).1 h
  refine ⟨hp, hb, hf, rfl, rfl, rfl, ?_⟩
  rw [State.normalOutcome, State.readValues, List.reverse_reverse, map_data_filterMap_readValue]

/-- At a normal end nothing is in flight, so the unit stays as it is (R106). -/
theorem State.Inv.step_of_atNormalEnd {s : State} (h : s.Inv) (hn : s.atNormalEnd = true) : step s = .next s := by
  obtain ⟨hp, hb, -⟩ := (atNormalEnd_iff s).1 hn
  rw [step_of_nothing_pending hp, complete_of_none (h.inFlight_of_not_busy hb)]

/-! ### Runs and their outcomes -/

theorem run_zero (s : State) : core.run 0 s = .next s := rfl

/-- A run from a state that steps to itself stays there. -/
theorem run_of_step_self {s : State} (h : step s = .next s) (j : Nat) : core.run j s = .next s := by
  induction j with
  | zero => rfl
  | succ j ih => rw [run_succ h, ih]

section
variable {s : State}

theorem runOutcome_of_fault (h : s.status.fault = true) (k : Nat) : runOutcome k s = .faulted s.status.fcode := by
  cases k <;> simp [runOutcome, h]

theorem runOutcome_of_atNormalEnd (h : s.atNormalEnd = true) (k : Nat) : runOutcome k s = .ended s.normalOutcome := by
  obtain ⟨-, -, hf⟩ := (atNormalEnd_iff s).1 h
  cases k <;> simp [runOutcome, hf, h]

theorem runOutcome_zero_of_running (hf : s.status.fault = false) (hn : s.atNormalEnd = false) :
    runOutcome 0 s = .running := by
  simp [runOutcome, hf, hn]

/-- Before its end a run's outcome is that of the rest of the run. -/
theorem runOutcome_succ {s' : State} (hf : s.status.fault = false) (hn : s.atNormalEnd = false)
    (hs : step s = .next s') (k : Nat) : runOutcome (k + 1) s = runOutcome k s' := by
  simp [runOutcome, hf, hn, hs]

end

/-- As long as no fault is met, the outcome of a run is the outcome of its rest. A normal end on the way is no
exception: the run stays at it. -/
theorem runOutcome_add {j : Nat} {s t : State} (hinv : s.Inv) (hrun : core.run j s = .next t)
    (hfault : ∀ i < j, ∀ u : State, core.run i s = .next u → u.status.fault = false) (m : Nat) :
    runOutcome (j + m) s = runOutcome m t := by
  induction j generalizing s with
  | zero =>
    cases hrun
    rw [Nat.zero_add]
  | succ j ih =>
    have hf : s.status.fault = false := hfault 0 (Nat.succ_pos j) s (run_zero s)
    cases hn : s.atNormalEnd with
    | true =>
      rw [run_of_step_self (hinv.step_of_atNormalEnd hn)] at hrun
      cases hrun
      rw [runOutcome_of_atNormalEnd hn, runOutcome_of_atNormalEnd hn]
    | false =>
      obtain ⟨s', hs⟩ := stepWith_next Config.completionFirst s
      rw [run_succ hs] at hrun
      rw [Nat.succ_add, runOutcome_succ hf hn hs]
      refine ih (hinv.stepWith hs) hrun fun i hi u hu => hfault (i + 1) (Nat.succ_lt_succ hi) u ?_
      rw [run_succ hs, hu]

/-- A run that meets a fault has a fault outcome: up to its first fault it goes on, and there it is decided. -/
theorem runOutcome_faulted_of_run {j k : Nat} {s t : State} (hinv : s.Inv) (hjk : j ≤ k)
    (hrun : core.run j s = .next t) (hf : t.status.fault = true) : ∃ code, runOutcome k s = .faulted code := by
  have hex : ∃ n, ∃ u : State, core.run n s = .next u ∧ u.status.fault = true := ⟨j, t, hrun, hf⟩
  classical
  obtain ⟨u, hu, hfu⟩ := Nat.find_spec hex
  have hbefore : ∀ i < Nat.find hex, ∀ u : State, core.run i s = .next u → u.status.fault = false :=
    fun i hi u hu => Bool.eq_false_iff.2 fun h => Nat.find_min hex hi ⟨u, hu, h⟩
  obtain ⟨m, rfl⟩ := Nat.exists_eq_add_of_le ((Nat.find_min' hex ⟨t, hrun, hf⟩).trans hjk)
  exact ⟨_, (runOutcome_add hinv hu hbefore m).trans (runOutcome_of_fault hfu m)⟩

/-- Inversion of a normal end: the run stands at it, or a step leads on to the rest of the run. -/
theorem runOutcome_ended_cases {k : Nat} {s : State} {o : NormalOutcome} (h : runOutcome k s = .ended o) :
    (s.atNormalEnd = true ∧ o = s.normalOutcome) ∨
      ∃ (m : Nat) (s' : State), k = m + 1 ∧ step s = .next s' ∧ runOutcome m s' = .ended o := by
  cases hf : s.status.fault with
  | true => cases (runOutcome_of_fault hf k).symm.trans h
  | false =>
    cases hn : s.atNormalEnd with
    | true =>
      cases (runOutcome_of_atNormalEnd hn k).symm.trans h
      exact Or.inl ⟨rfl, rfl⟩
    | false =>
      cases k with
      | zero => cases (runOutcome_zero_of_running hf hn).symm.trans h
      | succ m =>
        obtain ⟨s', hs⟩ := stepWith_next Config.completionFirst s
        exact Or.inr ⟨m, s', rfl, hs, (runOutcome_succ hf hn hs m).symm.trans h⟩

/-- A run that ends normally reaches the state its outcome is read from. -/
theorem run_of_runOutcome_ended {k : Nat} {s : State} {o : NormalOutcome} (h : runOutcome k s = .ended o) :
    ∃ j ≤ k, ∃ t, core.run j s = .next t ∧ t.EndsNormallyWith o := by
  induction k generalizing s with
  | zero =>
    obtain ⟨hn, rfl⟩ | ⟨m, s', hk, -⟩ := runOutcome_ended_cases h
    · exact ⟨0, Nat.le_refl 0, s, run_zero s, endsNormallyWith_normalOutcome hn⟩
    · cases hk
  | succ k ih =>
    obtain ⟨hn, rfl⟩ | ⟨m, s', hk, hs, hm⟩ := runOutcome_ended_cases h
    · exact ⟨0, Nat.zero_le _, s, run_zero s, endsNormallyWith_normalOutcome hn⟩
    · cases hk
      obtain ⟨j, hj, t, hrun, ht⟩ := ih hm
      exact ⟨j + 1, Nat.succ_le_succ hj, t, (run_succ hs j).trans hrun, ht⟩

end Sys2Proof.Machine
end

section
/-! The obligations about faults, the interrupt level and the end of a run, each from the lemmas above. -/

namespace Sys2Proof.Machine

/-- Settles O27: a fault's code names the commands that raise it, and no well-formed one raises code 3. -/
theorem divideFaultsComeOnlyFromDivisions : Obligations.DivideFaultsComeOnlyFromDivisions := by
  intro s i hacc hwf
  refine ⟨fun ht => ?_, fun ht => ?_, fun ht => ?_⟩
  · obtain ⟨-, hc⟩ | ⟨hop, -⟩ := takesFault_cases_of_wf hacc hwf ht
    · exact absurd hc (by decide)
    · exact hop
  · obtain ⟨hop, -⟩ | ⟨-, hc⟩ := takesFault_cases_of_wf hacc hwf ht
    · exact hop
    · exact absurd hc (by decide)
  · obtain ⟨-, hc⟩ | ⟨-, hc⟩ := takesFault_cases_of_wf hacc hwf ht <;> exact absurd hc (by decide)

/-- Settles O30: launching a record and raising a fault are the two outcomes of an issue, and neither touches a register
or a flag. -/
theorem issueLaunchesOrFaults : Obligations.IssueLaunchesOrFaults := by
  intro s i _
  rcases exec_cases i s with ⟨r, hl, hop, e⟩ | ⟨-, e⟩ | ⟨-, e⟩ | ⟨-, e⟩
  · exact Or.inl ⟨r, hl, hop, e⟩
  all_goals exact Or.inr ⟨_, e⟩

/-- Settles O43: a completion keeps FAULT; of the inputs only a CMD write sets it, and one that is performed comes with
BUSY = 0. -/
theorem faultIsEnteredOnlyAtIssue : Obligations.FaultIsEnteredOnlyAtIssue := by
  intro s s' hinv hs h0 h1
  obtain ⟨n, ⟨rfl, -⟩ | ⟨inp, rest, hp, hh, hper⟩⟩ := stepWith_cases hs
  · rw [complete_fault] at h1
    exact absurd (h1.symm.trans h0) (by decide)
  · obtain ⟨v, k, rfl, rfl⟩ := cmd_write_of_fault_entered hper h0 h1
    have hb := busy_of_cmd_not_held hh
    exact ⟨v, rest, hp, rfl, hb, hinv.inFlight_of_not_busy hb, rfl, rfl, rfl, rfl⟩

/-- Settles O55: the level's definition; and FAULT outlasts every step but a RESET. -/
theorem irqIsTheEnabledLevel : Obligations.IrqIsTheEnabledLevel := by
  refine ⟨irq_iff, rfl, fun s s' hinv hf hs hreset hie => (irq_iff s').2 (Or.inr ⟨?_, hie⟩)⟩
  obtain ⟨hf', -⟩ := faultStateLastsUntilReset s s' hinv hf hs hreset
  exact hf'

/-- Settles O57: a run is decided at its first fault or its normal end, and up to there its outcome is that of its
rest. -/
theorem runThatFaultsNeverEndsNormally : Obligations.RunThatFaultsNeverEndsNormally := by
  refine ⟨fun j k s t hinv hjk hrun hf => runOutcome_faulted_of_run hinv hjk hrun hf,
    fun k s o h => run_of_runOutcome_ended h, fun j k s t hinv hjk hrun hp hb hnofault => ?_⟩
  have hn : t.atNormalEnd = true := (atNormalEnd_iff t).2 ⟨hp, hb, hnofault j (Nat.le_refl j) t hrun⟩
  obtain ⟨m, rfl⟩ := Nat.exists_eq_add_of_le hjk
  have hrest := runOutcome_add hinv hrun (fun i hi => hnofault i (Nat.le_of_lt hi)) m
  exact ⟨_, hrest.trans (runOutcome_of_atNormalEnd hn m), endsNormallyWith_normalOutcome hn⟩

end Sys2Proof.Machine
end

section
/-! SUPPORT. A command in flight, said once: what the interlock keeps from it, and the three ways a step can go
(spec/70_reset_and_hazards.md R107, R111, R112). -/

namespace Sys2Proof.Machine

/-- A write to a limb, CMD or FLAGS that is not held comes with BUSY = 0 (R112). -/
theorem busy_of_interlocked_write_not_held {s : State} {off : Offset} {v : Limb} (halign : off.toNat % 8 = 0)
    (hoff : off.toNat ≤ 0x78 ∨ off.toNat = 0x80 ∨ off.toNat = 0x90)
    (hh : s.holds (.access (.write off 64 v)) = false) : s.status.busy = false := by
  rw [Bool.eq_false_iff] at hh ⊢
  exact fun hb => hh ((holds_access_iff s _).2
    ⟨hb, (admitted_iff _).2 ⟨rfl, halign⟩, (heldWhileBusy_iff off halign).2 hoff⟩)

/-- While BUSY = 1 an input other than RESET that is not held leaves the record, W, FLAGS and the inputs after it: those
that would change them are held (R112). -/
theorem perform_frame_of_busy {s s' : State} {inp : Input} (hb : s.status.busy = true) (hh : s.holds inp = false)
    (hr : inp ≠ .reset) (h : s.perform inp = .next s') :
    s'.inFlight = s.inFlight ∧ s'.w = s.w ∧ s'.flags = s.flags ∧ s'.pending = s.pending := by
  have hne : s.status.busy ≠ false := by simp [hb]
  rcases perform_cases h with ⟨hreset, -⟩ | ⟨_, rfl⟩ | ⟨off, _, _, _, rfl, hlane, hoff, -⟩ | ⟨_, rfl, -⟩ |
    ⟨_, -, rfl⟩ | ⟨_, -, rfl⟩ | ⟨_, rfl, -⟩
  · exact absurd hreset hr
  · exact ⟨rfl, rfl, rfl, rfl⟩
  · have halign : off.toNat % 8 = 0 := by rw [← lane_toNat, hlane]; rfl
    exact absurd (busy_of_interlocked_write_not_held halign (.inl hoff) hh) hne
  · exact absurd (busy_of_interlocked_write_not_held (by decide) (.inr (.inr rfl)) hh) hne
  · exact ⟨rfl, rfl, rfl, rfl⟩
  · exact ⟨rfl, rfl, rfl, rfl⟩
  · exact absurd (busy_of_cmd_not_held hh) hne

theorem State.Inv.busy_of_inFlight {s : State} {r : InFlight} (h : s.Inv) (hi : s.inFlight = some r) :
    s.status.busy = true := by
  by_contra hb
  cases hi.symm.trans (h.inFlight_of_not_busy (by simpa using hb))

/-- Inversion of a step with a command in flight, the choice counter aside: the command completes, a RESET abandons it,
or another input is performed and leaves the record, W and FLAGS. -/
theorem step_cases_of_inFlight {s s' : State} {r : InFlight} (hinv : s.Inv) (hi : s.inFlight = some r)
    (hs : step s = .next s') :
    (SameButTurn s.complete s' ∨
        ∃ rest, s.pending = .reset :: rest ∧ SameButTurn (s.dropPending rest).applyReset s') ∨
      ∃ inp rest, s.pending = inp :: rest ∧
        s'.inFlight = some r ∧ s'.w = s.w ∧ s'.flags = s.flags ∧ s'.pending = rest := by
  obtain ⟨n, ⟨rfl, -⟩ | ⟨inp, rest, hp, hh, hper⟩⟩ := stepWith_cases hs
  · exact .inl (.inl (sameButTurn_complete s n))
  · by_cases hr : inp = .reset
    · subst hr
      cases hper
      exact .inl (.inr ⟨rest, hp, sameButTurn_withTurn _ n⟩)
    · obtain ⟨hi', hw, hf, hp'⟩ := perform_frame_of_busy (s := .dropPending { s with turn := n } rest)
        (hinv.busy_of_inFlight hi) hh hr hper
      exact .inr ⟨inp, rest, hp, hi'.trans hi, hw, hf, hp'⟩

end Sys2Proof.Machine
end

section
/-! The obligation about the end of a command in flight, from the lemmas above. -/

namespace Sys2Proof.Machine

/-- Settles O40, by induction on the pending inputs: a step that neither completes the command nor resets the unit uses
one of them up and leaves the record, W and FLAGS, and with none left the step is the completion. -/
theorem commandsInFlightEnd : Obligations.CommandsInFlightEnd := by
  intro s r hinv hi
  induction hp : s.pending generalizing s with
  | nil =>
    exact ⟨0, Nat.le_refl 0, s, s.complete, run_zero s, hi, rfl, rfl, hp ▸ List.suffix_rfl, step_of_nothing_pending hp,
      .inl rfl⟩
  | cons inp rest ih =>
    obtain ⟨s', hs⟩ := stepWith_next Config.completionFirst s
    rcases step_cases_of_inFlight hinv hi hs with hend | ⟨_, _, hp', hi', hw, hf, hrest⟩
    · exact ⟨0, Nat.zero_le _, s, s', run_zero s, hi, rfl, rfl, hp ▸ List.suffix_rfl, hs, hend⟩
    · cases hp.symm.trans hp'
      obtain ⟨k, hk, t, t', hrun, hti, htw, htf, hsuffix, hend⟩ := ih s' (hinv.stepWith hs) hi' hrest
      exact ⟨k + 1, Nat.succ_le_succ hk, t, t', (run_succ hs k).trans hrun, hti, htw.trans hw, htf.trans hf,
        hsuffix.trans (List.suffix_cons inp rest), hend⟩

end Sys2Proof.Machine
end
